-- ==== Sys2Proof/Word.lean ====
section
/-!
DEFINITION. The word types of the CHIP-8 core. Every value the spec gives a width and does arithmetic or
bit operations on is a bit vector of that width (00_scope.md rules R6, R8); all are unsigned.
-/

namespace Sys2Proof

/-- An 8-bit value: a V register, the delay timer, a memory byte (rule R5, XLEN). -/
abbrev Byte := BitVec 8

/-- A 16-bit value: pc, I, a call-stack entry, an instruction word (rule R5, PC_W and ILEN). -/
abbrev Word := BitVec 16

/-- The 12-bit address field `nnn` (rule R8). -/
abbrev Addr := BitVec 12

/-- The index of a V register: the 4-bit fields `x` and `y` (rule R10). -/
abbrev RegIdx := Fin 16

/-- VF, the only flag, is register 15 (rules R8, R11). -/
abbrev VF : RegIdx := 15

/-- V0, the implicit register of Bnnn (rule R8). -/
abbrev V0 : RegIdx := 0

end Sys2Proof
end

