-- ==== Sys2Proof/Syntax.lean ====
section
/-!
DEFINITION. The instruction set as syntax: one constructor per row of spec/opcode_table.json, in the table's
order (30_encoding.md rule R56). The table is complete: 26 instructions, no other.
-/

namespace Sys2Proof

/-- The 26 instructions of rule R56. Register fields are indices 0 to 15; `nn` and `nnn` are the bits of the
word; the sprite height `n` of DRW is a count, and `Instr.wellFormed` bounds it (assumption log 5). -/
inductive Instr where
  | cls
  | ret
  | jp (nnn : Addr)
  | call (nnn : Addr)
  | seImm (x : RegIdx) (nn : Byte)
  | sneImm (x : RegIdx) (nn : Byte)
  | seReg (x y : RegIdx)
  | ldImm (x : RegIdx) (nn : Byte)
  | addImm (x : RegIdx) (nn : Byte)
  | ldReg (x y : RegIdx)
  | or (x y : RegIdx)
  | and (x y : RegIdx)
  | xor (x y : RegIdx)
  | addReg (x y : RegIdx)
  | sub (x y : RegIdx)
  | shr (x y : RegIdx)
  | subn (x y : RegIdx)
  | shl (x y : RegIdx)
  | sneReg (x y : RegIdx)
  | ldI (nnn : Addr)
  | jpV0 (nnn : Addr)
  | drw (x y : RegIdx) (n : Nat)
  | ldDt (x : RegIdx)
  | ldBcd (x : RegIdx)
  | stRegs (x : RegIdx)
  | ldRegs (x : RegIdx)
  deriving DecidableEq, Repr

end Sys2Proof
end

