-- ==== Sys2Proof/WellFormed.lean ====
section
/-!
DEFINITION. Which terms of `Instr` are instructions of the hardware. The types of the operands admit exactly
the values of the 4-, 8- and 12-bit fields (30_encoding.md rules R51, R53), and the spec gives every one of
those values a meaning, so the one check left is the sprite height of DRW, a 4-bit count.
-/

namespace Sys2Proof

/-- The instruction has an encoding: the sprite height is a row count 0 to 15 (rule R53). Height 0 is legal
(45_display.md rule R137). -/
def Instr.wellFormed : Instr → Bool
  | .drw _ _ n => decide (n < 16)
  | .cls | .ret | .jp _ | .call _ | .seImm _ _ | .sneImm _ _ | .seReg _ _ | .ldImm _ _ | .addImm _ _
  | .ldReg _ _ | .or _ _ | .and _ _ | .xor _ _ | .addReg _ _ | .sub _ _ | .shr _ _ | .subn _ _ | .shl _ _
  | .sneReg _ _ | .ldI _ | .jpV0 _ | .ldDt _ | .ldBcd _ | .stRegs _ | .ldRegs _ => true

end Sys2Proof
end

