-- ==== Sys2Proof/Decode.lean ====
section
/-!
DEFINITION. Decoding and encoding (30_encoding.md). The decoder is the opcode table read as rule R54 reads it:
a word is the instruction of row r exactly when `w & mask_r = match_r`, and a word of no row is rejected with
the word itself. After it the encoder, written from the formats of rule R52.
-/

namespace Sys2Proof

/-! ### Fields of an instruction word (rules R8, R51) -/

/-- `x = w[11:8]`, a register index. -/
def fieldX (w : Word) : RegIdx := (w.extractLsb' 8 4).toFin

/-- `y = w[7:4]`, a register index. -/
def fieldY (w : Word) : RegIdx := (w.extractLsb' 4 4).toFin

/-- `n = w[3:0]`, a count. -/
def fieldN (w : Word) : Nat := (w.extractLsb' 0 4).toNat

/-- `nn = w[7:0]`. -/
def fieldNn (w : Word) : Byte := w.extractLsb' 0 8

/-- `nnn = w[11:0]`. -/
def fieldNnn (w : Word) : Addr := w.extractLsb' 0 12

/-! ### The opcode table (rule R56) -/

/-- A row of the opcode table: the words it matches and the instruction it makes of one. -/
structure OpcodeRow where
  mnemonic : String
  value : Word
  mask : Word
  build : Word → Instr

/-- The word matches the row: every literal bit of the pattern is as the pattern has it (rule R54). -/
def OpcodeRow.accepts (r : OpcodeRow) (w : Word) : Bool := w &&& r.mask == r.value

def rowCls : OpcodeRow := ⟨"CLS", 0x00E0, 0xFFFF, fun _ => .cls⟩
def rowRet : OpcodeRow := ⟨"RET", 0x00EE, 0xFFFF, fun _ => .ret⟩
def rowJp : OpcodeRow := ⟨"JP", 0x1000, 0xF000, fun w => .jp (fieldNnn w)⟩
def rowCall : OpcodeRow := ⟨"CALL", 0x2000, 0xF000, fun w => .call (fieldNnn w)⟩
def rowSeImm : OpcodeRow := ⟨"SE_IMM", 0x3000, 0xF000, fun w => .seImm (fieldX w) (fieldNn w)⟩
def rowSneImm : OpcodeRow := ⟨"SNE_IMM", 0x4000, 0xF000, fun w => .sneImm (fieldX w) (fieldNn w)⟩
def rowSeReg : OpcodeRow := ⟨"SE_REG", 0x5000, 0xF00F, fun w => .seReg (fieldX w) (fieldY w)⟩
def rowLdImm : OpcodeRow := ⟨"LD_IMM", 0x6000, 0xF000, fun w => .ldImm (fieldX w) (fieldNn w)⟩
def rowAddImm : OpcodeRow := ⟨"ADD_IMM", 0x7000, 0xF000, fun w => .addImm (fieldX w) (fieldNn w)⟩
def rowLdReg : OpcodeRow := ⟨"LD_REG", 0x8000, 0xF00F, fun w => .ldReg (fieldX w) (fieldY w)⟩
def rowOr : OpcodeRow := ⟨"OR", 0x8001, 0xF00F, fun w => .or (fieldX w) (fieldY w)⟩
def rowAnd : OpcodeRow := ⟨"AND", 0x8002, 0xF00F, fun w => .and (fieldX w) (fieldY w)⟩
def rowXor : OpcodeRow := ⟨"XOR", 0x8003, 0xF00F, fun w => .xor (fieldX w) (fieldY w)⟩
def rowAddReg : OpcodeRow := ⟨"ADD_REG", 0x8004, 0xF00F, fun w => .addReg (fieldX w) (fieldY w)⟩
def rowSub : OpcodeRow := ⟨"SUB", 0x8005, 0xF00F, fun w => .sub (fieldX w) (fieldY w)⟩
def rowShr : OpcodeRow := ⟨"SHR", 0x8006, 0xF00F, fun w => .shr (fieldX w) (fieldY w)⟩
def rowSubn : OpcodeRow := ⟨"SUBN", 0x8007, 0xF00F, fun w => .subn (fieldX w) (fieldY w)⟩
def rowShl : OpcodeRow := ⟨"SHL", 0x800E, 0xF00F, fun w => .shl (fieldX w) (fieldY w)⟩
def rowSneReg : OpcodeRow := ⟨"SNE_REG", 0x9000, 0xF00F, fun w => .sneReg (fieldX w) (fieldY w)⟩
def rowLdI : OpcodeRow := ⟨"LD_I", 0xA000, 0xF000, fun w => .ldI (fieldNnn w)⟩
def rowJpV0 : OpcodeRow := ⟨"JP_V0", 0xB000, 0xF000, fun w => .jpV0 (fieldNnn w)⟩
def rowDrw : OpcodeRow := ⟨"DRW", 0xD000, 0xF000, fun w => .drw (fieldX w) (fieldY w) (fieldN w)⟩
def rowLdDt : OpcodeRow := ⟨"LD_DT", 0xF015, 0xF0FF, fun w => .ldDt (fieldX w)⟩
def rowLdBcd : OpcodeRow := ⟨"LD_BCD", 0xF033, 0xF0FF, fun w => .ldBcd (fieldX w)⟩
def rowStRegs : OpcodeRow := ⟨"ST_REGS", 0xF055, 0xF0FF, fun w => .stRegs (fieldX w)⟩
def rowLdRegs : OpcodeRow := ⟨"LD_REGS", 0xF065, 0xF0FF, fun w => .ldRegs (fieldX w)⟩

/-- The complete table, in the order of rule R56. -/
def opcodeTable : List OpcodeRow :=
  [rowCls, rowRet, rowJp, rowCall, rowSeImm, rowSneImm, rowSeReg, rowLdImm, rowAddImm] ++
  [rowLdReg, rowOr, rowAnd, rowXor, rowAddReg, rowSub, rowShr, rowSubn, rowShl, rowSneReg] ++
  [rowLdI, rowJpV0, rowDrw, rowLdDt, rowLdBcd, rowStRegs, rowLdRegs]

/-- The row of the table an instruction belongs to. -/
def rowOf : Instr → OpcodeRow
  | .cls => rowCls
  | .ret => rowRet
  | .jp _ => rowJp
  | .call _ => rowCall
  | .seImm _ _ => rowSeImm
  | .sneImm _ _ => rowSneImm
  | .seReg _ _ => rowSeReg
  | .ldImm _ _ => rowLdImm
  | .addImm _ _ => rowAddImm
  | .ldReg _ _ => rowLdReg
  | .or _ _ => rowOr
  | .and _ _ => rowAnd
  | .xor _ _ => rowXor
  | .addReg _ _ => rowAddReg
  | .sub _ _ => rowSub
  | .shr _ _ => rowShr
  | .subn _ _ => rowSubn
  | .shl _ _ => rowShl
  | .sneReg _ _ => rowSneReg
  | .ldI _ => rowLdI
  | .jpV0 _ => rowJpV0
  | .drw _ _ _ => rowDrw
  | .ldDt _ => rowLdDt
  | .ldBcd _ => rowLdBcd
  | .stRegs _ => rowStRegs
  | .ldRegs _ => rowLdRegs

/-! ### The decoder -/

/-- Why bytes are not an instruction. -/
inductive DecodeError where
  /-- The word matches no row (rule R58); it carries the word. -/
  | unimplementedOpcode (w : Word)
  /-- Fewer than the two bytes every instruction has (rule R50). The machine never meets this: a fetch always
  has two bytes. -/
  | truncated
  deriving DecidableEq, Repr

/-- Phases 3 and 4 of a Step: the row whose literal bits the word has, or the rejection of the word
(40_step_cycle.md rules R73, R74). -/
def decode (w : Word) : Except DecodeError Instr :=
  match opcodeTable.find? (fun r => r.accepts w) with
  | some r => .ok (r.build w)
  | none => .error (.unimplementedOpcode w)

/-- The decoder over bytes in memory order: always two bytes, the first the high-order one
(20_memory.md rule R32, rule R50). It answers with the bytes that follow. -/
def decodeBytes : List Byte → Except DecodeError (Instr × List Byte)
  | hi :: lo :: rest =>
    match decode (hi ++ lo) with
    | .ok i => .ok (i, rest)
    | .error e => .error e
  | [_] => .error .truncated
  | [] => .error .truncated

/-! ### The encoder -/

/-- A register index as a 4-bit field. -/
def nibble (x : RegIdx) : BitVec 4 := BitVec.ofFin x

/-- Format A: `op nnn` (rule R52). -/
def formatA (op : BitVec 4) (nnn : Addr) : Word := op ++ nnn

/-- Format XI: `op x nn`. -/
def formatXI (op : BitVec 4) (x : RegIdx) (nn : Byte) : Word := op ++ (nibble x ++ nn)

/-- Format XY: `op x y` and a literal fourth nibble; also format XYN, where that nibble is the field n. -/
def formatXY (op : BitVec 4) (x y : RegIdx) (last : BitVec 4) : Word := op ++ (nibble x ++ (nibble y ++ last))

/-- Format XS: the literal nibble F, `x`, and a literal low byte. -/
def formatXS (x : RegIdx) (low : Byte) : Word := 0xF#4 ++ (nibble x ++ low)

/-- The word of an instruction. A sprite height outside the field loses its high bits; such a term is not
well formed. -/
def encode : Instr → Word
  | .cls => 0x00E0
  | .ret => 0x00EE
  | .jp nnn => formatA 0x1 nnn
  | .call nnn => formatA 0x2 nnn
  | .seImm x nn => formatXI 0x3 x nn
  | .sneImm x nn => formatXI 0x4 x nn
  | .seReg x y => formatXY 0x5 x y 0x0
  | .ldImm x nn => formatXI 0x6 x nn
  | .addImm x nn => formatXI 0x7 x nn
  | .ldReg x y => formatXY 0x8 x y 0x0
  | .or x y => formatXY 0x8 x y 0x1
  | .and x y => formatXY 0x8 x y 0x2
  | .xor x y => formatXY 0x8 x y 0x3
  | .addReg x y => formatXY 0x8 x y 0x4
  | .sub x y => formatXY 0x8 x y 0x5
  | .shr x y => formatXY 0x8 x y 0x6
  | .subn x y => formatXY 0x8 x y 0x7
  | .shl x y => formatXY 0x8 x y 0xE
  | .sneReg x y => formatXY 0x9 x y 0x0
  | .ldI nnn => formatA 0xA nnn
  | .jpV0 nnn => formatA 0xB nnn
  | .drw x y n => formatXY 0xD x y (BitVec.ofNat 4 n)
  | .ldDt x => formatXS x 0x15
  | .ldBcd x => formatXS x 0x33
  | .stRegs x => formatXS x 0x55
  | .ldRegs x => formatXS x 0x65

/-! ### Words as bytes -/

/-- The bytes of a word in memory order: the high-order byte at the lower address (20_memory.md rule R32). -/
def wordBytes (w : Word) : List Byte := [w.extractLsb' 8 8, w.extractLsb' 0 8]

/-- The word of the low `nbits` bits of `w`, the bits above them 0: a word of the opcode table, whose bit 0 is
the least significant bit of the 16-bit word. -/
def tableWord (nbits w : Nat) : Word := BitVec.ofNat 16 (w % 2 ^ nbits)

/-- What the decoder reads from a word numbered as the opcode table numbers it. -/
def decodeTableWord (nbits w : Nat) : Option Instr :=
  match decodeBytes (wordBytes (tableWord nbits w)) with
  | .ok (i, _) => some i
  | .error _ => none

end Sys2Proof
end

