-- ==== Sys2Proof/Config.lean ====
section
/-!
DEFINITION. The parameters of 00_scope.md rule R5 that have a number. They are fixed on this hardware. The
parameter FONT is in Machine/Font.lean, END_OF_RUN in Safety.lean; STEP_RATE is used by no rule (rule R188)
and does not exist here. The spec leaves no result of an instruction undefined, so there is no free value.
-/

namespace Sys2Proof.Config

/-- MEM_SIZE: bytes of memory, addresses 0x000 to 0xFFF. -/
@[simp] def memSize : Nat := 0x1000

/-- FONT_LEN: bytes of the font atlas, from address 0x000 (FONT_BASE). -/
@[simp] def fontLen : Nat := 0x50

/-- PROG_BASE: where Load puts the program, and the lowest address a fetch accepts. -/
@[simp] def progBase : Nat := 0x200

/-- PROG_MAX: the most bytes Load can store. -/
@[simp] def progMax : Nat := 0xE00

/-- The highest address a fetch accepts: both bytes must be inside memory (rule R38). -/
@[simp] def lastFetch : Nat := 0xFFE

/-- FB_W: columns of the framebuffer. -/
@[simp] def fbWidth : Nat := 64

/-- FB_H: rows of the framebuffer. -/
@[simp] def fbHeight : Nat := 32

end Sys2Proof.Config
end

