-- ==== Sys2Proof/Machine/Font.lean ====
section
/-!
DEFINITION. The parameter FONT: what reset puts at 0x000 to 0x04F (10_state.md rule R19). The spec leaves the
80 bytes OPEN (decision D5) and gives a default, the conventional CHIP-8 font, which is taken here (PRESUMED,
unsafe: a claim that names a font byte rests on this table; assumption log 1). No statement of the model does.
-/

namespace Sys2Proof.Machine

/-- Glyphs 0 to F, five rows each, the top row first (the table of rule R19). -/
def font : List Byte :=
  [0xF0, 0x90, 0x90, 0x90, 0xF0,  0x20, 0x60, 0x20, 0x20, 0x70] ++
  [0xF0, 0x10, 0xF0, 0x80, 0xF0,  0xF0, 0x10, 0xF0, 0x10, 0xF0] ++
  [0x90, 0x90, 0xF0, 0x10, 0x10,  0xF0, 0x80, 0xF0, 0x10, 0xF0] ++
  [0xF0, 0x80, 0xF0, 0x90, 0xF0,  0xF0, 0x10, 0x20, 0x40, 0x40] ++
  [0xF0, 0x90, 0xF0, 0x90, 0xF0,  0xF0, 0x90, 0xF0, 0x10, 0xF0] ++
  [0xF0, 0x90, 0xF0, 0x90, 0x90,  0xE0, 0x90, 0xE0, 0x90, 0xE0] ++
  [0xF0, 0x80, 0x80, 0x80, 0xF0,  0xE0, 0x90, 0x90, 0x90, 0xE0] ++
  [0xF0, 0x80, 0xF0, 0x80, 0xF0,  0xF0, 0x80, 0xF0, 0x80, 0x80]

end Sys2Proof.Machine
end

