-- ==== Sys2Proof/Machine/State.lean ====
section
/-!
DEFINITION. The state of the machine: everything 10_state.md gives it and nothing else (rule R21), the reasons
a step stops, and the state after reset (rule R22). All of it is plain data.
-/

namespace Sys2Proof.Machine

/-- Memory as the cells that differ from their reset contents: addresses strictly rising, below 4096, no cell
equal to what an unlisted address reads as (`Memory.wf`, assumption log 3). -/
abbrev Memory := List Host.Cell

/-- The framebuffer: `fb[y][x]` is the pixel at column x of row y, on or off (rules R7, R20). -/
abbrev Screen := Vector (Vector Bool 64) 32

/-- The machine's state. -/
structure State where
  /-- V0 to VF (rule R10); VF is register 15 (rule R11). -/
  regs : Vector Byte 16
  /-- The address of the instruction the next Step fetches (rule R12). -/
  pc : Word
  /-- The index register I (rule R14). -/
  i : Word
  /-- The stack pointer, the number of live entries, 0 to 16 (rule R16). -/
  sp : Fin 17
  /-- The call stack, slots 0 to sp - 1 live (rule R17). -/
  stack : Vector Word 16
  /-- The delay timer (rule R15). -/
  dt : Byte
  /-- The 4096 bytes of memory (rule R18). -/
  mem : Memory
  /-- The framebuffer (rule R20). -/
  fb : Screen
  /-- The host-side phase flag: a Step has happened since Reset (rule R183). No instruction reads it. -/
  stepped : Bool
  deriving DecidableEq, Repr

/-- The five faults of 60_exceptions.md rule R150. Each ends the Step and changes no state (rule R156). -/
inductive Fault where
  /-- The fetched word matches no row of the opcode table; raised by `step` in dispatch (rule R151). Safe: the
  spec names the fault. -/
  | unimplementedOpcode (w : Word)
  /-- A CALL with 16 entries on the stack; raised by `push` (rule R152). Safe: the spec names the fault. -/
  | stackOverflow
  /-- A RET with an empty stack; raised by `pop` (rule R153). Safe: the spec names the fault. -/
  | stackUnderflow
  /-- pc outside 0x0200 to 0x0FFE; raised by `fetch` (rule R154, the spec's decision D7). Safe: it refuses where
  the source is silent. -/
  | fetchOutOfRange (pc : Word)
  /-- A data address above 0xFFF, the first in ascending order; raised by `loadBytes` and `storeBytes` (rule
  R155, the spec's decision D6). Safe: it refuses where the source is silent. -/
  | dataAddressOutOfRange (addr : Nat)
  deriving DecidableEq, Repr

/-- Reasons that are not the machine's own faults. -/
inductive Refusal where
  /-- The instruction has no meaning in the model yet; raised by an arm of `exec` that has no meaning; no arm is
  such. Safe. -/
  | notModelled (mnemonic : String)
  /-- Load after a Step without a Reset, which the spec gives no meaning (rule R183); raised by `hostOp`, never
  by a step. Safe. -/
  | loadAfterStep
  deriving DecidableEq, Repr

/-- What a step or an instruction answers. -/
abbrev Result := Host.Outcome State Fault Refusal

/-- The state after Reset (rules R22, R180). pc is the document's own value; the zeros are the spec's decision
D4 (assumption log 2). Memory lists nothing: every address reads as its reset contents. -/
def State.reset : State where
  regs := Vector.replicate 16 0
  pc := 0x0200
  i := 0
  sp := 0
  stack := Vector.replicate 16 0
  dt := 0
  mem := []
  fb := Vector.replicate 32 (Vector.replicate 64 false)
  stepped := false

end Sys2Proof.Machine
end

