-- ==== Sys2Proof/Machine/Ops.lean ====
section
/-!
DEFINITION. The named operations over memory, registers, pc and the call stack, raising a fault, and the
phases of a Step before execute. Everything the meanings and `step` do to the state goes through these.
-/

namespace Sys2Proof.Machine

/-! ### Memory (20_memory.md) -/

/-- What an address that lists nothing reads as: the reset contents, FONT at 0x000 to 0x04F and 0x00 elsewhere
(10_state.md rules R19, R22; assumption logs 1 to 3). -/
def Memory.initial (a : Nat) : Byte := font.getD a 0

/-- The byte at an address. -/
def Memory.byte (m : Memory) (a : Nat) : Byte :=
  match m.find? (fun c => c.1 == a) with
  | some c => c.2
  | none => Memory.initial a

/-- Memory without the cell of an address. -/
def Memory.without (m : Memory) (a : Nat) : Memory := m.filter (fun c => c.1 != a)

/-- A cell put where the rising order of addresses wants it. -/
def Memory.insertCell (c : Host.Cell) : Memory → Memory
  | [] => [c]
  | d :: ds => if c.1 < d.1 then c :: d :: ds else d :: Memory.insertCell c ds

/-- Memory with the byte at one address replaced. Writing the reset contents back removes the cell, so equal
memories are equal data. -/
def Memory.put (m : Memory) (a : Nat) (v : Byte) : Memory :=
  if v = Memory.initial a then m.without a else Memory.insertCell (a, v) (m.without a)

/-- The canonical form of memory: addresses strictly rising and inside the 4096 bytes, no cell equal to what an
unlisted address reads as. -/
abbrev Memory.wf (m : Memory) : Prop :=
  m.Pairwise (fun c d => c.1 < d.1) ∧ ∀ c ∈ m, c.1 < Config.memSize ∧ c.2 ≠ Memory.initial c.1

/-- The `n` bytes from an address, ascending. -/
def Memory.getBytes (m : Memory) (a n : Nat) : List Byte := (List.range n).map (fun k => m.byte (a + k))

/-- Memory with a block of bytes stored from an address, ascending. -/
def Memory.putBytes (m : Memory) (a : Nat) : List Byte → Memory
  | [] => m
  | b :: bs => Memory.putBytes (m.put a b) (a + 1) bs

/-- The range check of a data access of `n` bytes from `a`: addresses are plain integers, there is no wrap, and
the address reported is the first one above 0xFFF (rule R35; the spec's decisions D6, D24). An access of no
bytes checks nothing (45_display.md rule R137). From I <= 0x0FFF, which every reachable state has, the address
reported is 0x1000. -/
def rangeFault (a n : Nat) : Option Fault :=
  if n ≠ 0 ∧ a + n - 1 > 0xFFF then some (.dataAddressOutOfRange (max a 0x1000)) else none

/-- Read `n` single bytes from `a`, or raise (rules R31, R33, R35). -/
def loadBytes (m : Memory) (a n : Nat) : Except Fault (List Byte) :=
  match rangeFault a n with
  | some f => .error f
  | none => .ok (m.getBytes a n)

/-- Store single bytes from `a`, all of them or none (rules R31, R34, R35). -/
def storeBytes (m : Memory) (a : Nat) (bs : List Byte) : Except Fault Memory :=
  match rangeFault a bs.length with
  | some f => .error f
  | none => .ok (m.putBytes a bs)

/-! ### Registers and pc (10_state.md) -/

/-- `V[x]` (rule R10). -/
def State.v (s : State) (x : RegIdx) : Byte := s.regs.get x

/-- `V[x] <- b`. -/
def State.setV (s : State) (x : RegIdx) (b : Byte) : State := { s with regs := s.regs.set x.val b x.isLt }

/-- The state with the bytes of a list in V0, V1, ... and the registers past its end as they were. -/
def State.setRegs (s : State) (bs : List Byte) : State :=
  { s with regs := Vector.ofFn (fun k : Fin 16 => bs.getD k.val (s.v k)) }

/-- `pc <- (pc + 2) mod 2^16` (rule R13, advance). -/
def State.advance (s : State) : State := { s with pc := s.pc + 2 }

/-- `pc <- (pc + 4) mod 2^16` (rule R13, skip). -/
def State.skip (s : State) : State := { s with pc := s.pc + 4 }

/-- Skip if the condition holds, else advance (42_skip.md). -/
def State.skipIf (s : State) (c : Bool) : State := if c then s.skip else s.advance

/-- `pc <- target` (rule R13, absolute and return). The target is not checked here (41_flow.md rule R85). -/
def State.jump (s : State) (target : Word) : State := { s with pc := target }

/-! ### The call stack (rule R17) -/

/-- Push a return address, or raise StackOverflow with 16 entries. -/
def State.push (s : State) (a : Word) : Except Fault State :=
  if h : s.sp.val < 16 then
    .ok { s with stack := s.stack.set s.sp.val a h, sp := ⟨s.sp.val + 1, by omega⟩ }
  else .error .stackOverflow

/-- Pop the top entry, or raise StackUnderflow with none. The vacated slot keeps its value (D25). -/
def State.pop (s : State) : Except Fault (Word × State) :=
  if h : s.sp.val = 0 then .error .stackUnderflow
  else .ok (s.stack[s.sp.val - 1]'(by omega), { s with sp := ⟨s.sp.val - 1, by omega⟩ })

/-! ### Faults (60_exceptions.md) -/

/-- Taking an exception on this hardware: nothing is saved, no mode changes and no vector is fetched; the Step
ends and the fault goes to the host (rule R156). The state stays what it was before the Step, so the outcome
carries none. There is no return from it (rule R157). -/
def raise (f : Fault) : Result := .fault f

/-- The numeric code of a fault (rule R150, the spec's decision D11). -/
def Fault.code : Fault → Nat
  | .unimplementedOpcode _ => 1
  | .stackOverflow => 2
  | .stackUnderflow => 3
  | .fetchOutOfRange _ => 4
  | .dataAddressOutOfRange _ => 5

/-- The fault of a word the decoder rejects (rule R74). A fetch never gives fewer than two bytes; the second
arm only makes the function total. -/
def decodeFault (w : Word) : DecodeError → Fault
  | .unimplementedOpcode v => .unimplementedOpcode v
  | .truncated => .unimplementedOpcode w

/-! ### The phases of a Step before execute (40_step_cycle.md) -/

/-- `dt1`: one less, and 0 stays 0 (rule R71). -/
def timerTick (dt : Byte) : Byte := if dt = 0 then 0 else dt - 1

/-- The state phase 5 starts from: DT is `dt1` (rule R79), and the host's flag records that a Step has happened
(rule R183). -/
def State.beginStep (s : State) : State := { s with dt := timerTick s.dt, stepped := true }

/-- Two bytes as a word, the one at the lower address in bits 15 to 8 (20_memory.md rules R32, R33). -/
def Memory.word (m : Memory) (a : Nat) : Word := m.byte a ++ m.byte (a + 1)

/-- Phase 2: the word at pc, or FetchOutOfRange (rule R72). pc may be odd (rule R36). -/
def fetch (s : State) : Except Fault Word :=
  if s.pc.toNat < Config.progBase ∨ s.pc.toNat > Config.lastFetch then .error (.fetchOutOfRange s.pc)
  else .ok (s.mem.word s.pc.toNat)

end Sys2Proof.Machine
end

