-- ==== Sys2Proof/Machine/Flags.lean ====
section
/-!
DEFINITION. The flag computations. VF is the only flag, and the six instructions that write it as one write
their result to Vx first and the flag to VF last (10_state.md rule R11, 90_conflicts.md C2; assumption log 8).
-/

namespace Sys2Proof.Machine

/-- A one-bit flag as VF's value: 1 or 0. -/
def flagByte (c : Bool) : Byte := if c then 1 else 0

/-- The carry of an 8-bit addition: the exact sum is above 255 (43_alu.md rules R106, R111). -/
def carry (a b : Byte) : Bool := decide (a.toNat + b.toNat > 255)

/-- The flag of 8xy6: the LOW NIBBLE of the value before the shift (rule R108). -/
def lowNibble (a : Byte) : Byte := a &&& 0x0F

/-- The flag of 8xyE: bit 7 of the value before the shift (rule R110). -/
def topBit (a : Byte) : Byte := a >>> 7

/-- Write the result to Vx, then the flag to VF: with x = 15 the flag stays (rule R11). -/
def State.setResultFlag (s : State) (x : RegIdx) (result flag : Byte) : State := (s.setV x result).setV VF flag

/-- The addition with carry that 8xy4, 8xy5 and 8xy7 all do (rules R106, R107, R109, R113). -/
def State.addCarry (s : State) (x : RegIdx) (a b : Byte) : State :=
  s.setResultFlag x (a + b) (flagByte (carry a b))

end Sys2Proof.Machine
end

