-- ==== Sys2Proof/Machine/Operands.lean ====
section
/-!
DEFINITION. The operand forms (30_encoding.md rule R53, 44_index_timer_memory.md rule R126). `Vx`, `Vy` are
`State.v`, and `nn` and `n` are used as they stand.
-/

namespace Sys2Proof.Machine

/-- `zext_16(nnn)`: an absolute address, as a jump target or as the value of I. -/
def absolute (nnn : Addr) : Word := nnn.setWidth 16

/-- The target of Bnnn: `(zext_16(V[0]) + zext_16(nnn)) mod 2^16` (41_flow.md rule R83). -/
def State.indexed (s : State) (nnn : Addr) : Word := (s.v V0).setWidth 16 + absolute nnn

/-- The base of every data access: I as a plain integer; the k-th byte is at `I + k` (rule R126). -/
def State.base (s : State) : Nat := s.i.toNat

/-- V0 to Vx, the block Fx55 stores (rule R123). -/
def State.block (s : State) (x : RegIdx) : List Byte := s.regs.toList.take (x.val + 1)

/-- The decimal digits of a byte, hundreds first, one a byte (rule R122). -/
def bcdDigits (b : Byte) : List Byte :=
  [BitVec.ofNat 8 (b.toNat / 100), BitVec.ofNat 8 (b.toNat / 10 % 10), BitVec.ofNat 8 (b.toNat % 10)]

end Sys2Proof.Machine
end

