-- ==== Sys2Proof/Machine/Alu.lean ====
section
/-!
DEFINITION. The register and ALU instructions (43_alu.md). All arithmetic wraps modulo 256 (rule R111). The two
quirks stand as the spec has them: 8xy5 and 8xy7 ADD, and the flag of 8xy6 is the low nibble.
-/

namespace Sys2Proof.Machine

/-- 6xnn LD Vx, nn (rule R100). -/
def execLdImm (x : RegIdx) (nn : Byte) (s : State) : Result := .next (s.setV x nn).advance

/-- 7xnn ADD Vx, nn: wrapping, VF is not a flag here (rule R101). -/
def execAddImm (x : RegIdx) (nn : Byte) (s : State) : Result := .next (s.setV x (s.v x + nn)).advance

/-- 8xy0 LD Vx, Vy (rule R102). -/
def execLdReg (x y : RegIdx) (s : State) : Result := .next (s.setV x (s.v y)).advance

/-- 8xy1 OR Vx, Vy: VF is not touched (rule R103). -/
def execOr (x y : RegIdx) (s : State) : Result := .next (s.setV x (s.v x ||| s.v y)).advance

/-- 8xy2 AND Vx, Vy: VF is not touched (rule R104). -/
def execAnd (x y : RegIdx) (s : State) : Result := .next (s.setV x (s.v x &&& s.v y)).advance

/-- 8xy3 XOR Vx, Vy: VF is not touched (rule R105). -/
def execXor (x y : RegIdx) (s : State) : Result := .next (s.setV x (s.v x ^^^ s.v y)).advance

/-- 8xy4 ADD Vx, Vy, with carry in VF (rule R106). -/
def execAddReg (x y : RegIdx) (s : State) : Result := .next (s.addCarry x (s.v x) (s.v y)).advance

/-- 8xy5 SUB Vx, Vy: an ADDITION with the carry of the sum (rule R107). -/
def execSub (x y : RegIdx) (s : State) : Result := .next (s.addCarry x (s.v x) (s.v y)).advance

/-- 8xy6 SHR Vx: y is ignored (rules R57, R108). -/
def execShr (x _y : RegIdx) (s : State) : Result :=
  .next (s.setResultFlag x (s.v x >>> 1) (lowNibble (s.v x))).advance

/-- 8xy7 SUBN Vx, Vy: an ADDITION, Vy + Vx (rule R109). -/
def execSubn (x y : RegIdx) (s : State) : Result := .next (s.addCarry x (s.v y) (s.v x)).advance

/-- 8xyE SHL Vx: y is ignored (rules R57, R110). -/
def execShl (x _y : RegIdx) (s : State) : Result :=
  .next (s.setResultFlag x (s.v x <<< 1) (topBit (s.v x))).advance

end Sys2Proof.Machine
end

