-- ==== Sys2Proof/Machine/Screen.lean ====
section
/-!
DEFINITION. The framebuffer engine: clear, toggle, the sprite draw and snapshot (45_display.md rules R130 to
R133, R135, R136).
-/

namespace Sys2Proof.Machine

/-- The pixel at (x, y), the coordinates reduced modulo width and height (rule R130). -/
def Screen.pixel (fb : Screen) (x y : Nat) : Bool :=
  (fb[y % 32]'(Nat.mod_lt _ (by decide)))[x % 64]'(Nat.mod_lt _ (by decide))

/-- The framebuffer with the pixel at (x, y) replaced, the coordinates reduced. -/
def Screen.setPixel (fb : Screen) (x y : Nat) (b : Bool) : Screen :=
  fb.set (y % 32)
    ((fb[y % 32]'(Nat.mod_lt _ (by decide))).set (x % 64) b (Nat.mod_lt _ (by decide)))
    (Nat.mod_lt _ (by decide))

/-- `clear()`: every pixel off (rule R131). -/
def Screen.clear : Screen := Vector.replicate 32 (Vector.replicate 64 false)

/-- `toggle(x, y, bit)`: XOR one pixel and answer whether it was on before (rule R132). -/
def Screen.toggle (fb : Screen) (x y : Nat) (bit : Bool) : Screen × Bool :=
  (fb.setPixel x y (fb.pixel x y ^^ bit), fb.pixel x y)

/-- Column c of a sprite row is bit 7 - c of the byte: the most significant bit is leftmost (rule R135, the
spec's decision D8; assumption log 7). -/
def spriteBit (b : Byte) (c : Nat) : Bool := b.getLsbD (7 - c)

/-- Some columns of one sprite row. The collision of a column is `was_on & bit`: an on pixel went off (rule
R140). -/
def drawCols (vx vy : Nat) (b : Byte) : List Nat → Screen → Screen × Bool
  | [], fb => (fb, false)
  | c :: cs, fb =>
    let (fb1, wasOn) := fb.toggle (vx + c) vy (spriteBit b c)
    let (fb2, hit) := drawCols vx vy b cs fb1
    (fb2, (wasOn && spriteBit b c) || hit)

/-- One sprite row at (vx, vy): its eight columns, left to right (rule R136). -/
def drawRow (vx vy : Nat) (b : Byte) (fb : Screen) : Screen × Bool := drawCols vx vy b (List.range 8) fb

/-- The rows of a sprite from (vx, vy) down, and whether any pixel went from on to off (rule R136). -/
def drawSprite (vx : Nat) : Nat → List Byte → Screen → Screen × Bool
  | _, [], fb => (fb, false)
  | vy, b :: bs, fb =>
    let (fb1, hit1) := drawRow vx vy b fb
    let (fb2, hit2) := drawSprite vx (vy + 1) bs fb1
    (fb2, hit1 || hit2)

/-- `snapshot()`: the 2048 pixels row-major, element `y * 64 + x` (rule R133, the spec's decision D22). -/
def Screen.snapshot (fb : Screen) : List Bool := fb.toList.flatMap (fun row => row.toList)

end Sys2Proof.Machine
end

