-- ==== Sys2Proof/Machine/Display.lean ====
section
/-!
DEFINITION. The display instructions (45_display.md).
-/

namespace Sys2Proof.Machine

/-- 00E0 CLS (rule R134). -/
def execCls (s : State) : Result := .next { s with fb := Screen.clear }.advance

/-- Dxyn DRW Vx, Vy, n: read the coordinates and the n sprite bytes, draw, and write the collision to VF last
(rules R136, R141). With n = 0 nothing is read and VF becomes 0 (rule R137). -/
def execDrw (x y : RegIdx) (n : Nat) (s : State) : Result :=
  match loadBytes s.mem s.base n with
  | .ok rows =>
    let (fb, hit) := drawSprite (s.v x).toNat (s.v y).toNat rows s.fb
    .next (({ s with fb := fb }.setV VF (flagByte hit)).advance)
  | .error f => raise f

end Sys2Proof.Machine
end

