-- ==== Sys2Proof/Machine/Flow.lean ====
section
/-!
DEFINITION. Jumps, call and return (41_flow.md).
-/

namespace Sys2Proof.Machine

/-- 00EE RET: pop the call stack into pc; nothing is added to the popped value (rule R80). -/
def execRet (s : State) : Result :=
  match s.pop with
  | .ok (target, s') => .next (s'.jump target)
  | .error f => raise f

/-- 1nnn JP nnn (rule R81). -/
def execJp (nnn : Addr) (s : State) : Result := .next (s.jump (absolute nnn))

/-- 2nnn CALL nnn: push pc + 2, then jump (rule R82). -/
def execCall (nnn : Addr) (s : State) : Result :=
  match s.push (s.pc + 2) with
  | .ok s' => .next (s'.jump (absolute nnn))
  | .error f => raise f

/-- Bnnn JP V0, nnn: the register is always V0 (rule R83). -/
def execJpV0 (nnn : Addr) (s : State) : Result := .next (s.jump (s.indexed nnn))

end Sys2Proof.Machine
end

