-- ==== Sys2Proof/Machine/Skip.lean ====
section
/-!
DEFINITION. The conditional skips (42_skip.md). The skipped word is neither fetched nor decoded.
-/

namespace Sys2Proof.Machine

/-- 3xnn SE Vx, nn (rule R90). -/
def execSeImm (x : RegIdx) (nn : Byte) (s : State) : Result := .next (s.skipIf (s.v x == nn))

/-- 4xnn SNE Vx, nn (rule R91). -/
def execSneImm (x : RegIdx) (nn : Byte) (s : State) : Result := .next (s.skipIf (s.v x != nn))

/-- 5xy0 SE Vx, Vy (rule R92). -/
def execSeReg (x y : RegIdx) (s : State) : Result := .next (s.skipIf (s.v x == s.v y))

/-- 9xy0 SNE Vx, Vy (rule R93). -/
def execSneReg (x y : RegIdx) (s : State) : Result := .next (s.skipIf (s.v x != s.v y))

end Sys2Proof.Machine
end

