-- ==== Sys2Proof/Machine/Transfer.lean ====
section
/-!
DEFINITION. The index register, the delay timer and the memory transfers (44_index_timer_memory.md). I is the
base of every transfer and none of them changes it (rule R126).
-/

namespace Sys2Proof.Machine

/-- Annn LD I, nnn: the address is not checked here (rule R120). -/
def execLdI (nnn : Addr) (s : State) : Result := .next { s with i := absolute nnn }.advance

/-- Fx15 LD DT, Vx: overrides the decrement of phase 1 (rules R77, R121). -/
def execLdDt (x : RegIdx) (s : State) : Result := .next { s with dt := s.v x }.advance

/-- Fx33 LD B, Vx: three decimal digits at I, I+1, I+2 (rule R122). -/
def execLdBcd (x : RegIdx) (s : State) : Result :=
  match storeBytes s.mem s.base (bcdDigits (s.v x)) with
  | .ok m => .next { s with mem := m }.advance
  | .error f => raise f

/-- Fx55 LD [I], Vx: V0 to Vx to memory from I, x included (rule R123). -/
def execStRegs (x : RegIdx) (s : State) : Result :=
  match storeBytes s.mem s.base (s.block x) with
  | .ok m => .next { s with mem := m }.advance
  | .error f => raise f

/-- Fx65 LD Vx, [I]: V0 to Vx from memory at I, x included (rule R124). -/
def execLdRegs (x : RegIdx) (s : State) : Result :=
  match loadBytes s.mem s.base (x.val + 1) with
  | .ok bs => .next (s.setRegs bs).advance
  | .error f => raise f

end Sys2Proof.Machine
end

