-- ==== Sys2Proof/Machine/Step.lean ====
section
/-!
DEFINITION. One Step of the machine (40_step_cycle.md rule R79), and placing a word where it fetches.
-/

namespace Sys2Proof.Machine

/-- The whole Step: fetch, decode and dispatch, then the handler on the state with DT ticked. A fault carries
no state: the machine stays as it was before the Step, the timer included (rules R75, R156). -/
def step (s : State) : Host.Outcome State Fault Refusal :=
  match fetch s with
  | .error f => raise f
  | .ok w =>
    match decode w with
    | .error e => raise (decodeFault w e)
    | .ok i => exec i s.beginStep

/-- The state with an instruction word of the opcode table stored at pc, high byte first. Nothing else
changes: the machine fetches at pc (assumption log 21). Where pc leaves no room for two bytes there is no such
state, and a fetch there faults. -/
def State.withFetchWord (s : State) (nbits w : Nat) : State :=
  match storeBytes s.mem s.pc.toNat (wordBytes (tableWord nbits w)) with
  | .ok m => { s with mem := m }
  | .error _ => s

end Sys2Proof.Machine
end

