-- ==== Sys2Proof/Machine/HostOps.lean ====
section
/-!
DEFINITION. The four operations of the host on the block (70_reset_and_hazards.md rules R180 to R183). `step`
is the machine's own Step; here it is seen from the host, which keeps the state a fault leaves.
-/

namespace Sys2Proof.Machine

/-- What the host sends (rule R181). -/
inductive HostOp where
  | reset
  | load (bytes : List Byte)
  | step
  | snapshot
  deriving DecidableEq, Repr

/-- What the host gets back (rule R181). -/
inductive HostReply where
  /-- Reset answers nothing. -/
  | done
  /-- Load answers how many bytes it dropped. -/
  | dropped (n : Nat)
  /-- A Step that committed. -/
  | ok
  /-- A Step that faulted. -/
  | fault (f : Fault)
  /-- Snapshot answers the 2048 pixels, row-major. -/
  | pixels (p : List Bool)
  /-- The spec gives the operation no meaning here. -/
  | refused (r : Refusal)
  deriving DecidableEq, Repr

/-- Load's effect on the state: at most 3584 bytes from 0x200 (rule R182). -/
def State.loadImage (s : State) (bytes : List Byte) : State :=
  { s with mem := s.mem.putBytes Config.progBase (bytes.take Config.progMax) }

/-- A Step as the host sees it: the next state and Ok, or the unchanged architectural state and the fault. The
phase flag is set either way (rule R183). -/
def hostStep (s : State) : State × HostReply :=
  match step s with
  | .next t => (t, .ok)
  | .fault f => ({ s with stepped := true }, .fault f)
  | .refused r => ({ s with stepped := true }, .refused r)

/-- The host's operations. Load is legal only before the first Step since Reset; later it is refused and
changes nothing (rule R183; assumption log 11). -/
def hostOp (op : HostOp) (s : State) : State × HostReply :=
  match op with
  | .reset => (State.reset, .done)
  | .load bytes =>
    if s.stepped then (s, .refused .loadAfterStep)
    else (s.loadImage bytes, .dropped (bytes.length - Config.progMax))
  | .step => hostStep s
  | .snapshot => (s, .pixels s.fb.snapshot)

end Sys2Proof.Machine
end

