-- ==== Sys2Proof/Safety.lean ====
section
/-!
DEFINITION. The terms claims about the machine are made in: what an instruction leaves alone (its frame), the
invariant of 10_state.md rule R24, the states a host can reach, and what a safe run and the end of a run are.
-/

namespace Sys2Proof.Safety

open Sys2Proof.Machine

/-! ### Frames -/

/-- Every register but the listed ones is unchanged. -/
def KeepsRegs (changed : List RegIdx) (s t : State) : Prop := ∀ r, r ∉ changed → t.v r = s.v r

/-- Every byte of memory reads as before. -/
def KeepsMemory (s t : State) : Prop := ∀ a, t.mem.byte a = s.mem.byte a

/-- Every byte of memory outside `n` bytes from `a` reads as before. -/
def KeepsMemoryOutside (a n : Nat) (s t : State) : Prop :=
  ∀ b, ¬(a ≤ b ∧ b < a + n) → t.mem.byte b = s.mem.byte b

/-- The stack pointer and all sixteen slots are unchanged. -/
def KeepsStack (s t : State) : Prop := t.sp = s.sp ∧ t.stack = s.stack

/-- I is unchanged. -/
def KeepsIndex (s t : State) : Prop := t.i = s.i

/-- The delay timer is unchanged (by the instruction; a Step has ticked it before). -/
def KeepsTimer (s t : State) : Prop := t.dt = s.dt

/-- Every pixel is unchanged. -/
def KeepsScreen (s t : State) : Prop := t.fb = s.fb

/-- The host's phase flag is unchanged. -/
def KeepsPhase (s t : State) : Prop := t.stepped = s.stepped

/-- The frame of an instruction that writes at most the listed registers and pc. -/
def KeepsAllButRegs (changed : List RegIdx) (s t : State) : Prop :=
  KeepsRegs changed s t ∧ KeepsMemory s t ∧ KeepsStack s t ∧ KeepsIndex s t ∧ KeepsTimer s t ∧
  KeepsScreen s t ∧ KeepsPhase s t

/-- pc advanced by the bytes of one or two instructions, modulo 2^16 (rule R13). -/
def AdvancesBy (k : Nat) (s t : State) : Prop := t.pc.toNat = (s.pc.toNat + k) % 65536

/-! ### The invariant -/

/-- What holds in every state a host can reach (rule R24), and the canonical form of memory. That SP is 0 to 16
and that registers hold 8 bits is in the types. -/
abbrev Inv (s : State) : Prop :=
  s.mem.wf ∧ s.i.toNat ≤ 0x0FFF ∧ s.pc.toNat ≤ 0x10FE ∧
  ∀ k : Fin 16, k.val < s.sp.val → 0x0202 ≤ (s.stack.get k).toNat ∧ (s.stack.get k).toNat ≤ 0x1000

/-- The states the host's operations reach from Reset (rules R24, R181). -/
inductive Reachable : State → Prop where
  | reset : Reachable State.reset
  | host {s : State} (op : HostOp) : Reachable s → Reachable (hostOp op s).1

/-! ### The instruction a Step runs -/

/-- The instruction the next Step dispatches, if its fetch and decode succeed. -/
def nextInstr (s : State) : Option Instr :=
  match fetch s with
  | .error _ => none
  | .ok w =>
    match decode w with
    | .error _ => none
    | .ok i => some i

/-! ### Words as the rules write them -/

/-- `m | nnn` (format A). -/
def wordA (m : Word) (nnn : Addr) : Word := m ||| nnn.setWidth 16

/-- `m | x << 8 | nn` (format XI). -/
def wordXI (m : Word) (x : RegIdx) (nn : Byte) : Word := m ||| BitVec.ofNat 16 x.val <<< 8 ||| nn.setWidth 16

/-- `m | x << 8 | y << 4` (format XY). -/
def wordXY (m : Word) (x y : RegIdx) : Word := m ||| BitVec.ofNat 16 x.val <<< 8 ||| BitVec.ofNat 16 y.val <<< 4

/-- `m | x << 8` (format XS). -/
def wordXS (m : Word) (x : RegIdx) : Word := m ||| BitVec.ofNat 16 x.val <<< 8

/-- The illegal words, listed as rule R58 lists them. -/
def IllegalWord (w : Word) : Prop :=
  (w.toNat ≤ 0x0FFF ∧ w.toNat ≠ 0x00E0 ∧ w.toNat ≠ 0x00EE) ∨
  ((w.toNat / 4096 = 0x5 ∨ w.toNat / 4096 = 0x9) ∧ 1 ≤ w.toNat % 16) ∨
  (w.toNat / 4096 = 0x8 ∧ w.toNat % 16 ∈ [0x8, 0x9, 0xA, 0xB, 0xC, 0xD, 0xF]) ∨
  w.toNat / 4096 = 0xC ∨
  w.toNat / 4096 = 0xE ∨
  (w.toNat / 4096 = 0xF ∧ w.toNat % 256 ∉ [0x15, 0x33, 0x55, 0x65])

/-! ### Sprites -/

/-- The sprite of the given rows placed at (vx, vy) with wrap, as a picture: is the pixel at (x, y) set in it.
The column of the sprite there is `(x - vx) mod 64` and the row `(y - vy) mod 32`; column c is bit 7 - c of the
row's byte (rules R135, R138, R139). -/
def spritePixel (vx vy : Nat) (rows : List Byte) (x y : Nat) : Bool :=
  let c := (x + 64 - vx % 64) % 64
  let r := (y + 32 - vy % 32) % 32
  decide (c < 8) && decide (r < rows.length) && (rows.getD r 0).getLsbD (7 - c)

/-- Some pixel is on in the framebuffer and set in the sprite (rule R140). -/
def Collides (fb : Screen) (vx vy : Nat) (rows : List Byte) : Prop :=
  ∃ x y, x < 64 ∧ y < 32 ∧ fb.pixel x y = true ∧ spritePixel vx vy rows x y = true

/-- The sprite bytes a DRW of height n reads. -/
def spriteRows (s : State) (n : Nat) : List Byte := s.mem.getBytes s.base n

/-! ### Runs -/

/-- `k` Steps end in a state, none of them a fault. -/
def SafeRun (k : Nat) (s : State) : Prop := ∃ t, Sys2Proof.core.run k s = .next t

/-- The next instruction is a JP to its own address: the end of a run the spec suggests for its open parameter
END_OF_RUN (rule R185, decision D18; DESIGN CHOICE, assumption log 12). -/
def AtSelfJump (s : State) : Prop := ∃ nnn : Addr, nextInstr s = some (.jp nnn) ∧ absolute nnn = s.pc

end Sys2Proof.Safety
end

