-- ==== Sys2Proof/Certificates/Slice0/Obligations.lean ====
section
/-!
DEFINITION. The statements for the provers, in the terms of Safety.lean. "The spec's decision D<n>" is a row of
spec/92_eei_decisions.md: the spec's own choice where its source is silent, so a statement that rests on one has
basis 'derived'. Statements about an instruction hold for every register, VF included, unless a clause says so.
-/

open Sys2Proof Sys2Proof.Machine Sys2Proof.Safety

/-! ### Encoding (30_encoding.md) -/

/-- Words written out from the patterns of rule R56, one or more a family, decode to their instructions. -/
def Obligations.DecodeReadsSampleWords : Prop :=
  decode 0x00E0 = .ok .cls ∧ decode 0x00EE = .ok .ret ∧ decode 0x2ABC = .ok (.call 0xABC) ∧
  decode 0x3F01 = .ok (.seImm 15 0x01) ∧ decode 0x9AB0 = .ok (.sneReg 10 11) ∧
  decode 0x8126 = .ok (.shr 1 2) ∧ decode 0xBFFF = .ok (.jpV0 0xFFF) ∧
  decode 0xD01F = .ok (.drw 0 1 15) ∧ decode 0xF255 = .ok (.stRegs 2)

/-- Every well-formed instruction decodes from its word and from its two bytes in memory order, whatever bytes
follow (rules R32, R50 to R56). -/
def Obligations.DecodeEncodeRoundTrip : Prop :=
  ∀ (i : Instr) (rest : List Byte), i.wellFormed = true →
    decode (encode i) = .ok i ∧ decodeBytes (wordBytes (encode i) ++ rest) = .ok (i, rest)

/-- A word that decodes is the word of what it decodes to: no bit of a legal word is dropped (rule R57: an
ignored field is decoded all the same). -/
def Obligations.DecodedWordEncodesBack : Prop :=
  ∀ (w : Word) (i : Instr), decode w = .ok i → encode i = w ∧ i.wellFormed = true

/-- A word is an instruction exactly when one row of the table accepts it, and then one only (rules R54, R74;
every literal digit of a pattern is required by the spec's decision D10). -/
def Obligations.DecodableWordsMatchExactlyOneRow : Prop :=
  ∀ w : Word, (∃ i, decode w = .ok i) ↔ ∃! r, r ∈ opcodeTable ∧ w &&& r.mask = r.value

/-- The illegal words are those rule R58 lists; a Step that fetches one raises UnimplementedOpcode with the raw
word and changes nothing but the host's phase flag (that DT is unchanged too is the spec's decision D3, log 10;
the flag is its D14, and that it stands in State is assumption log 9). -/
def Obligations.IllegalWordsFault : Prop :=
  ∀ w : Word,
    (decode w = .error (.unimplementedOpcode w) ↔ IllegalWord w) ∧
    ((∃ i, decode w = .ok i) ↔ ¬IllegalWord w) ∧
    (IllegalWord w → ∀ s : State, fetch s = .ok w →
      step s = .fault (.unimplementedOpcode w) ∧
      hostOp .step s = ({ s with stepped := true }, .fault (.unimplementedOpcode w)))

/-! ### The Step (40_step_cycle.md) -/

/-- A Step whose two bytes at pc decode is `exec` of what they decode to, on the state with DT one less (0 stays
0) and the host's phase flag set (rule R79). -/
def Obligations.StepRunsTheDecodedInstruction : Prop :=
  ∀ (s : State) (i : Instr), 0x0200 ≤ s.pc.toNat → s.pc.toNat ≤ 0x0FFE →
    decode (s.mem.byte s.pc.toNat ++ s.mem.byte (s.pc.toNat + 1)) = .ok i →
    step s = exec i { s with dt := if s.dt = 0 then 0 else s.dt - 1, stepped := true }

/-- The fetch is big-endian and whatever the parity of pc (rules R32, R36): inside the window it gives the byte
at pc times 256 plus the byte after it; outside (the spec's decision D7) the Step faults. -/
def Obligations.FetchIsBigEndianInsideTheWindow : Prop :=
  ∀ s : State,
    (0x0200 ≤ s.pc.toNat → s.pc.toNat ≤ 0x0FFE → ∃ w, fetch s = .ok w ∧
      w.toNat = (s.mem.byte s.pc.toNat).toNat * 256 + (s.mem.byte (s.pc.toNat + 1)).toNat) ∧
    ((s.pc.toNat < 0x0200 ∨ 0x0FFE < s.pc.toNat) → step s = .fault (.fetchOutOfRange s.pc))

/-- The five faults and exactly when a Step raises each, in the priority of rule R158 (rules R150 to R155; the
fetch window is the spec's decision D7, the data range D6, the address reported D24). -/
def Obligations.StepFaultsExactlyWhen : Prop :=
  ∀ (s : State) (f : Fault), step s = .fault f ↔
    ((s.pc.toNat < 0x0200 ∨ 0x0FFE < s.pc.toNat) ∧ f = .fetchOutOfRange s.pc) ∨
    (∃ w, fetch s = .ok w ∧ IllegalWord w ∧ f = .unimplementedOpcode w) ∨
    (∃ nnn, nextInstr s = some (.call nnn) ∧ s.sp.val = 16 ∧ f = .stackOverflow) ∨
    (nextInstr s = some .ret ∧ s.sp.val = 0 ∧ f = .stackUnderflow) ∨
    (∃ n, ((∃ x y, nextInstr s = some (.drw x y n)) ∨ (n = 3 ∧ ∃ x, nextInstr s = some (.ldBcd x)) ∨
        ∃ x, n = x.val + 1 ∧ (nextInstr s = some (.stRegs x) ∨ nextInstr s = some (.ldRegs x))) ∧
      n ≠ 0 ∧ 0xFFF < s.base + n - 1 ∧ f = .dataAddressOutOfRange (max s.base 0x1000))

/-- A Step always ends in a next state or a fault; it is never refused (rule R76). -/
def Obligations.StepIsNeverRefused : Prop :=
  ∀ (s : State) (r : Refusal), step s ≠ .refused r

/-- A Step that faults leaves the whole architectural state, DT included, as it was, and the next Step gives the
same fault again (rules R75, R156, R157; the spec's decisions D3, D13). -/
def Obligations.FaultingStepChangesNothingAndRepeats : Prop :=
  ∀ (s : State) (f : Fault), step s = .fault f →
    hostOp .step s = ({ s with stepped := true }, .fault f) ∧
    hostOp .step (hostOp .step s).1 = ({ s with stepped := true }, .fault f)

/-- DT after a Step: V[x] if the Step ran Fx15, else one less, and 0 stays 0 (rules R71, R77; the timer counts
Steps by the spec's decision D2). -/
def Obligations.TimerAfterEveryStep : Prop :=
  ∀ s t : State, step s = .next t →
    (∀ x, nextInstr s = some (.ldDt x) → t.dt = s.v x) ∧
    ((∀ x, nextInstr s ≠ some (.ldDt x)) → t.dt.toNat = s.dt.toNat - 1)

/-- A JP to its own address repeats for ever and only counts DT down to 0 (rules R78, R81). -/
def Obligations.SelfJumpOnlyCountsTheTimerDown : Prop :=
  ∀ (k : Nat) (s : State), AtSelfJump s →
    Sys2Proof.core.run (k + 1) s =
      .next { s with dt := BitVec.ofNat 8 (s.dt.toNat - (k + 1)), stepped := true }

/-! ### Reset, the invariant and the host (10_state.md, 70_reset_and_hazards.md) -/

/-- What Reset leaves, from any state (rule R22): pc is the document's; the zeros are the spec's decision D4
(assumption log 2), the font its open parameter FONT (log 1), of which this says only the length and place. -/
def Obligations.ResetState : Prop :=
  font.length = 80 ∧ ∀ s : State, ∃ t, hostOp .reset s = (t, .done) ∧ t = State.reset ∧
    t.pc.toNat = 0x0200 ∧ (∀ r, t.v r = 0) ∧ t.i = 0 ∧ t.sp.val = 0 ∧ (∀ k, t.stack.get k = 0) ∧ t.dt = 0 ∧
    (∀ a, t.mem.byte a = if a < 0x050 then font.getD a 0 else 0) ∧
    (∀ x y, t.fb.pixel x y = false) ∧ t.stepped = false

/-- The invariant of rule R24 holds after Reset. -/
def Obligations.ResetMeetsTheInvariant : Prop := Inv State.reset

/-- Every Step from a state with the invariant of rule R24 leads to one: memory canonical, I at most 0x0FFF, pc
at most 0x10FE, every live stack entry in 0x0202 to 0x1000. -/
def Obligations.StepKeepsTheInvariant : Prop :=
  ∀ s t : State, Inv s → step s = .next t → Inv t

/-- The invariant of rule R24 holds in every state the host's operations reach from Reset. -/
def Obligations.ReachableStatesMeetTheInvariant : Prop :=
  ∀ s : State, Reachable s → Inv s

/-- Load copies at most 3584 bytes to 0x200, answers how many it dropped, and changes nothing else (rule R182;
the answer is the spec's decision D21). -/
def Obligations.LoadCopiesTheImage : Prop :=
  ∀ (s : State) (bytes : List Byte), s.stepped = false →
    ∃ m, hostOp (.load bytes) s = ({ s with mem := m }, .dropped (bytes.length - 3584)) ∧
      (∀ k, k < bytes.length → k < 3584 → m.byte (0x200 + k) = bytes.getD k 0) ∧
      (∀ a, ¬(0x200 ≤ a ∧ a < 0x200 + min bytes.length 3584) → m.byte a = s.mem.byte a)

/-- The first instruction of a loaded program is the first two bytes of the image (rule R184). -/
def Obligations.LoadedProgramStartsWithItsFirstWord : Prop :=
  ∀ (i : Instr) (rest : List Byte), i.wellFormed = true →
    nextInstr (hostOp (.load (wordBytes (encode i) ++ rest)) State.reset).1 = some i

/-- A Step sets the phase flag, whether it commits or faults; then Load is refused and changes nothing, and
Reset is the only way back (rule R183; the spec's decision D14, assumption log 11). -/
def Obligations.LoadIsRefusedAfterAStep : Prop :=
  ∀ (s : State) (bytes : List Byte),
    (hostOp .step s).1.stepped = true ∧
    hostOp (.load bytes) (hostOp .step s).1 = ((hostOp .step s).1, .refused .loadAfterStep) ∧
    (hostOp .reset (hostOp .step s).1).1.stepped = false

/-- Snapshot answers 2048 values, element y * 64 + x the pixel at (x, y), and changes nothing (rule R133; the
element type is the spec's decision D22). -/
def Obligations.SnapshotIsRowMajor : Prop :=
  ∀ s : State, ∃ p, hostOp .snapshot s = (s, .pixels p) ∧ p.length = 2048 ∧
    ∀ x y, x < 64 → y < 32 → p[y * 64 + x]? = some (s.fb.pixel x y)

/-! ### What only some instructions can change (10_state.md rule R23) -/

/-- I is written by Annn only, with nnn (rule R14). -/
def Obligations.OnlyLdIWritesI : Prop :=
  ∀ s t : State, step s = .next t →
    (∃ nnn, nextInstr s = some (.ldI nnn) ∧ t.i.toNat = nnn.toNat) ∨
    ((∀ nnn, nextInstr s ≠ some (.ldI nnn)) ∧ t.i = s.i)

/-- SP and the call stack are moved by CALL and RET only, by one entry (rules R16, R17). -/
def Obligations.OnlyCallAndRetMoveTheStack : Prop :=
  ∀ s t : State, step s = .next t →
    (∃ nnn, nextInstr s = some (.call nnn) ∧ t.sp.val = s.sp.val + 1 ∧
      ∀ k : Fin 16, t.stack.get k = if k.val = s.sp.val then s.pc + 2 else s.stack.get k) ∨
    (nextInstr s = some .ret ∧ t.sp.val + 1 = s.sp.val ∧ t.stack = s.stack) ∨
    ((∀ nnn, nextInstr s ≠ some (.call nnn)) ∧ nextInstr s ≠ some .ret ∧ t.sp = s.sp ∧ t.stack = s.stack)

/-- A pixel changes only in a Step that runs 00E0 or Dxyn (rule R20). -/
def Obligations.OnlyClsAndDrwWriteTheScreen : Prop :=
  ∀ s t : State, step s = .next t → t.fb ≠ s.fb →
    nextInstr s = some .cls ∨ ∃ x y n, nextInstr s = some (.drw x y n)

/-- A byte of memory changes only in a Step that runs Fx33 or Fx55, and only inside the bytes it stores (rule
R31). -/
def Obligations.OnlyStoresWriteMemory : Prop :=
  ∀ (s t : State) (a : Nat), step s = .next t → t.mem.byte a ≠ s.mem.byte a →
    (∃ x, nextInstr s = some (.ldBcd x) ∧ s.base ≤ a ∧ a ≤ s.base + 2 ∧ a ≤ 0xFFF) ∨
    (∃ x, nextInstr s = some (.stRegs x) ∧ s.base ≤ a ∧ a ≤ s.base + x.val ∧ a ≤ 0xFFF)

/-- VF changes only in the six flag-writing instructions and where it is a destination register (rule R11). -/
def Obligations.OnlyFlagWritersAndDestinationsChangeVF : Prop :=
  ∀ s t : State, step s = .next t → t.v VF ≠ s.v VF →
    (∃ x y, nextInstr s = some (.addReg x y) ∨ nextInstr s = some (.sub x y) ∨
      nextInstr s = some (.shr x y) ∨ nextInstr s = some (.subn x y) ∨ nextInstr s = some (.shl x y) ∨
      ∃ n, nextInstr s = some (.drw x y n)) ∨
    (∃ nn, nextInstr s = some (.ldImm VF nn) ∨ nextInstr s = some (.addImm VF nn)) ∨
    (∃ y, nextInstr s = some (.ldReg VF y) ∨ nextInstr s = some (.or VF y) ∨
      nextInstr s = some (.and VF y) ∨ nextInstr s = some (.xor VF y)) ∨
    nextInstr s = some (.ldRegs VF)

/-- pc after a Step, in the four ways of rule R13: advance, skip, absolute, return. No sum wraps: the modulus of
the spec's decision D26 never takes effect. -/
def Obligations.PcIsWrittenInOneOfFourWays : Prop :=
  ∀ s t : State, step s = .next t → ∃ i, nextInstr s = some i ∧
    (t.pc.toNat = s.pc.toNat + 2 ∧ i ≠ .ret ∧
        (∀ nnn, i ≠ .jp nnn ∧ i ≠ .call nnn ∧ i ≠ .jpV0 nnn) ∨
     t.pc.toNat = s.pc.toNat + 4 ∧ ((∃ x nn, i = .seImm x nn ∨ i = .sneImm x nn) ∨
        ∃ x y, i = .seReg x y ∨ i = .sneReg x y) ∨
     (∃ nnn, (i = .jp nnn ∨ i = .call nnn) ∧ t.pc.toNat = nnn.toNat) ∨
     (∃ nnn, i = .jpV0 nnn ∧ t.pc.toNat = (s.v V0).toNat + nnn.toNat) ∨
     (i = .ret ∧ ∃ k : Fin 16, k.val + 1 = s.sp.val ∧ t.pc = s.stack.get k))

/-- DT, the phase flag and the vacated stack slots influence nothing else: two states that differ only in these
step alike (rules R15, R17, R21, R183; that vacated slots exist at all is the spec's decision D25). -/
def Obligations.TimerPhaseAndDeadSlotsAreUnobservable : Prop :=
  ∀ (s : State) (d : Byte) (b : Bool) (slots : Vector Word 16),
    (∀ k : Fin 16, k.val < s.sp.val → slots.get k = s.stack.get k) →
    (∀ f, step s = .fault f ↔ step { s with dt := d, stepped := b, stack := slots } = .fault f) ∧
    (∀ t, step s = .next t → ∃ u, step { s with dt := d, stepped := b, stack := slots } = .next u ∧
      u.regs = t.regs ∧ u.pc = t.pc ∧ u.i = t.i ∧ u.sp = t.sp ∧ u.mem = t.mem ∧ u.fb = t.fb ∧
      ∀ k : Fin 16, k.val < t.sp.val → u.stack.get k = t.stack.get k)

/-! ### Control flow (41_flow.md) -/

/-- RET (rule R80). The popped value is used as it is; a return to 0x1000 succeeds and the next Step faults in
its fetch (the fetch window is the spec's decision D7). -/
def Obligations.RetPopsIntoPc : Prop :=
  decode 0x00EE = .ok .ret ∧
  (∀ s : State, s.sp.val = 0 → exec .ret s = .fault .stackUnderflow) ∧
  (∀ (s : State) (k : Fin 16), k.val + 1 = s.sp.val → ∃ t, exec .ret s = .next t ∧
    t.pc = s.stack.get k ∧ t.sp.val = k.val ∧ t.stack = s.stack ∧ KeepsRegs [] s t ∧ KeepsMemory s t ∧
    KeepsIndex s t ∧ KeepsTimer s t ∧ KeepsScreen s t ∧ KeepsPhase s t ∧
    (s.stack.get k = 0x1000 → step t = .fault (.fetchOutOfRange 0x1000)))

/-- JP nnn: any target; it is checked only by the next Step's fetch (rule R81; the fetch window is the
spec's decision D7). -/
def Obligations.JpGoesToItsAddress : Prop :=
  ∀ (nnn : Addr) (s : State), decode (wordA 0x1000 nnn) = .ok (.jp nnn) ∧
    ∃ t, exec (.jp nnn) s = .next t ∧ t.pc.toNat = nnn.toNat ∧ KeepsAllButRegs [] s t ∧
      (nnn.toNat < 0x200 ∨ nnn.toNat = 0xFFF → step t = .fault (.fetchOutOfRange t.pc))

/-- CALL nnn (rule R82). -/
def Obligations.CallPushesTheReturnAddress : Prop :=
  ∀ (nnn : Addr) (s : State), decode (wordA 0x2000 nnn) = .ok (.call nnn) ∧
    (s.sp.val = 16 → exec (.call nnn) s = .fault .stackOverflow) ∧
    (∀ k : Fin 16, k.val = s.sp.val → ∃ t, exec (.call nnn) s = .next t ∧
      t.pc.toNat = nnn.toNat ∧ t.sp.val = s.sp.val + 1 ∧
      (t.stack.get k).toNat = (s.pc.toNat + 2) % 65536 ∧ (∀ j, j ≠ k → t.stack.get j = s.stack.get j) ∧
      KeepsRegs [] s t ∧ KeepsMemory s t ∧ KeepsIndex s t ∧ KeepsTimer s t ∧ KeepsScreen s t ∧
      KeepsPhase s t)

/-- JP V0, nnn: the register is V0 whatever the second nibble, and a sum above 0x0FFE makes the next Step fault
in its fetch (rule R83; the fetch window is the spec's decision D7). -/
def Obligations.JpV0AddsV0 : Prop :=
  ∀ (nnn : Addr) (s : State), decode (wordA 0xB000 nnn) = .ok (.jpV0 nnn) ∧
    ∃ t, exec (.jpV0 nnn) s = .next t ∧ t.pc.toNat = ((s.v V0).toNat + nnn.toNat) % 65536 ∧
      KeepsAllButRegs [] s t ∧
      (0x0FFE < (s.v V0).toNat + nnn.toNat → step t = .fault (.fetchOutOfRange t.pc))

/-- A RET right after a CALL comes back behind it, at the depth it had, with no register, I or DT saved or
restored by either (rule R84). What stands between may change all but SP and the stack. -/
def Obligations.RetComesBackBehindTheCall : Prop :=
  ∀ (nnn : Addr) (s t u : State), exec (.call nnn) s = .next t → u.sp = t.sp → u.stack = t.stack →
    ∃ r, exec .ret u = .next r ∧ r.pc.toNat = (s.pc.toNat + 2) % 65536 ∧ r.sp = s.sp ∧
      (∀ k : Fin 16, k.val < s.sp.val → r.stack.get k = s.stack.get k) ∧
      KeepsRegs [] u r ∧ KeepsIndex u r ∧ KeepsTimer u r ∧ KeepsMemory u r

/-! ### Skips (42_skip.md) -/

/-- SE Vx, nn and SNE Vx, nn (rules R90, R91). -/
def Obligations.ImmediateSkips : Prop :=
  ∀ (x : RegIdx) (nn : Byte) (s : State),
    decode (wordXI 0x3000 x nn) = .ok (.seImm x nn) ∧ decode (wordXI 0x4000 x nn) = .ok (.sneImm x nn) ∧
    (∃ t, exec (.seImm x nn) s = .next t ∧ KeepsAllButRegs [] s t ∧
      AdvancesBy (if (s.v x).toNat = nn.toNat then 4 else 2) s t) ∧
    (∃ t, exec (.sneImm x nn) s = .next t ∧ KeepsAllButRegs [] s t ∧
      AdvancesBy (if (s.v x).toNat = nn.toNat then 2 else 4) s t)

/-- SE Vx, Vy and SNE Vx, Vy (rules R92, R93). With any other fourth nibble the words are illegal. -/
def Obligations.RegisterSkips : Prop :=
  ∀ (x y : RegIdx) (s : State),
    decode (wordXY 0x5000 x y) = .ok (.seReg x y) ∧ decode (wordXY 0x9000 x y) = .ok (.sneReg x y) ∧
    (∀ n : Word, 1 ≤ n.toNat → n.toNat ≤ 15 → ∀ m : Word, m = 0x5000 ∨ m = 0x9000 →
      decode (wordXY m x y ||| n) = .error (.unimplementedOpcode (wordXY m x y ||| n))) ∧
    (∃ t, exec (.seReg x y) s = .next t ∧ KeepsAllButRegs [] s t ∧
      AdvancesBy (if (s.v x).toNat = (s.v y).toNat then 4 else 2) s t) ∧
    (∃ t, exec (.sneReg x y) s = .next t ∧ KeepsAllButRegs [] s t ∧
      AdvancesBy (if (s.v x).toNat = (s.v y).toNat then 2 else 4) s t)

/-! ### Registers and ALU (43_alu.md) -/

/-- LD Vx, nn and LD Vx, Vy (rules R100, R102). -/
def Obligations.RegisterLoads : Prop :=
  ∀ (x y : RegIdx) (nn : Byte) (s : State),
    decode (wordXI 0x6000 x nn) = .ok (.ldImm x nn) ∧ decode (wordXY 0x8000 x y) = .ok (.ldReg x y) ∧
    (∃ t, exec (.ldImm x nn) s = .next t ∧ t.v x = nn ∧ KeepsAllButRegs [x] s t ∧ AdvancesBy 2 s t) ∧
    (∃ t, exec (.ldReg x y) s = .next t ∧ t.v x = s.v y ∧ KeepsAllButRegs [x] s t ∧ AdvancesBy 2 s t)

/-- ADD Vx, nn: wrapping, no flag (rule R101). -/
def Obligations.AddImmediateWrapsWithoutFlag : Prop :=
  ∀ (x : RegIdx) (nn : Byte) (s : State), decode (wordXI 0x7000 x nn) = .ok (.addImm x nn) ∧
    ∃ t, exec (.addImm x nn) s = .next t ∧ (t.v x).toNat = ((s.v x).toNat + nn.toNat) % 256 ∧
      KeepsAllButRegs [x] s t ∧ AdvancesBy 2 s t

/-- OR, AND, XOR: bit by bit, VF untouched as a flag (rules R103, R104, R105). -/
def Obligations.BitwiseInstructions : Prop :=
  ∀ (x y : RegIdx) (s : State),
    decode (wordXY 0x8001 x y) = .ok (.or x y) ∧ decode (wordXY 0x8002 x y) = .ok (.and x y) ∧
    decode (wordXY 0x8003 x y) = .ok (.xor x y) ∧
    (∃ t, exec (.or x y) s = .next t ∧ KeepsAllButRegs [x] s t ∧ AdvancesBy 2 s t ∧
      ∀ k, (t.v x).getLsbD k = ((s.v x).getLsbD k || (s.v y).getLsbD k)) ∧
    (∃ t, exec (.and x y) s = .next t ∧ KeepsAllButRegs [x] s t ∧ AdvancesBy 2 s t ∧
      ∀ k, (t.v x).getLsbD k = ((s.v x).getLsbD k && (s.v y).getLsbD k)) ∧
    (∃ t, exec (.xor x y) s = .next t ∧ KeepsAllButRegs [x] s t ∧ AdvancesBy 2 s t ∧
      ∀ k, (t.v x).getLsbD k = Bool.xor ((s.v x).getLsbD k) ((s.v y).getLsbD k))

/-- 8xy4, 8xy5 and 8xy7 are one addition with the carry in VF (rules R106, R107, R109, R113). VF is written
last, so with x = 15 it ends as the flag, and with y = 15 the addend is the old VF (rule R11, the spec's decision
D9, conflict C2). -/
def Obligations.ThreeEncodingsOfOneAddition : Prop :=
  ∀ (x y : RegIdx) (s : State) (i : Instr), i = .addReg x y ∨ i = .sub x y ∨ i = .subn x y →
    ∃ t, exec i s = .next t ∧
      (x ≠ VF → (t.v x).toNat = ((s.v x).toNat + (s.v y).toNat) % 256) ∧
      (t.v VF).toNat = (if 255 < (s.v x).toNat + (s.v y).toNat then 1 else 0) ∧
      KeepsAllButRegs [x, VF] s t ∧ AdvancesBy 2 s t

/-- 8xy6 shifts right and sets VF to the old LOW NIBBLE; 8xyE shifts left and sets VF to the old bit 7. y is
ignored by both (rules R57, R108, R110). VF is written last (rule R11, the spec's decision D9, conflict C2). -/
def Obligations.ShiftsIgnoreYAndWriteTheFlagLast : Prop :=
  ∀ (x y : RegIdx) (s : State),
    (∃ t, exec (.shr x y) s = .next t ∧ (x ≠ VF → (t.v x).toNat = (s.v x).toNat / 2) ∧
      (t.v VF).toNat = (s.v x).toNat % 16 ∧ KeepsAllButRegs [x, VF] s t ∧ AdvancesBy 2 s t) ∧
    (∃ t, exec (.shl x y) s = .next t ∧ (x ≠ VF → (t.v x).toNat = (s.v x).toNat * 2 % 256) ∧
      (t.v VF).toNat = (s.v x).toNat / 128 ∧ KeepsAllButRegs [x, VF] s t ∧ AdvancesBy 2 s t)

/-! ### Index, timer and memory (44_index_timer_memory.md) -/

/-- LD I, nnn: any address, unchecked (rule R120). -/
def Obligations.LdISetsTheIndex : Prop :=
  ∀ (nnn : Addr) (s : State), decode (wordA 0xA000 nnn) = .ok (.ldI nnn) ∧
    ∃ t, exec (.ldI nnn) s = .next t ∧ t.i.toNat = nnn.toNat ∧ AdvancesBy 2 s t ∧ KeepsRegs [] s t ∧
      KeepsMemory s t ∧ KeepsStack s t ∧ KeepsTimer s t ∧ KeepsScreen s t ∧ KeepsPhase s t

/-- LD DT, Vx: after the whole Step too, DT is Vx exactly (rule R121). -/
def Obligations.LdDtSetsTheTimer : Prop :=
  ∀ (x : RegIdx) (s : State), decode (wordXS 0xF015 x) = .ok (.ldDt x) ∧
    (nextInstr s = some (.ldDt x) → ∃ t, step s = .next t ∧ t.dt = s.v x) ∧
    ∃ t, exec (.ldDt x) s = .next t ∧ t.dt = s.v x ∧ AdvancesBy 2 s t ∧ KeepsRegs [] s t ∧
      KeepsMemory s t ∧ KeepsStack s t ∧ KeepsIndex s t ∧ KeepsScreen s t ∧ KeepsPhase s t

/-- LD B, Vx inside memory: the three decimal digits of Vx, a byte each, hundreds at I (rule R122). -/
def Obligations.BcdStoresTheThreeDigits : Prop :=
  ∀ (x : RegIdx) (s : State), s.base + 2 ≤ 0xFFF → ∃ t, exec (.ldBcd x) s = .next t ∧
    (s.v x).toNat = 100 * (t.mem.byte s.base).toNat + 10 * (t.mem.byte (s.base + 1)).toNat +
      (t.mem.byte (s.base + 2)).toNat ∧
    (t.mem.byte s.base).toNat ≤ 2 ∧ (t.mem.byte (s.base + 1)).toNat ≤ 9 ∧
    (t.mem.byte (s.base + 2)).toNat ≤ 9 ∧
    KeepsMemoryOutside s.base 3 s t ∧ AdvancesBy 2 s t ∧ KeepsRegs [] s t ∧ KeepsStack s t ∧
    KeepsIndex s t ∧ KeepsTimer s t ∧ KeepsScreen s t ∧ KeepsPhase s t

/-- LD [I], Vx inside memory: V0 to Vx, x included, to I upward; I unchanged (rules R123, R126). -/
def Obligations.RegisterBlockStore : Prop :=
  ∀ (x : RegIdx) (s : State), s.base + x.val ≤ 0xFFF → ∃ t, exec (.stRegs x) s = .next t ∧
    (∀ r : RegIdx, r.val ≤ x.val → t.mem.byte (s.base + r.val) = s.v r) ∧
    KeepsMemoryOutside s.base (x.val + 1) s t ∧ AdvancesBy 2 s t ∧ KeepsRegs [] s t ∧ KeepsStack s t ∧
    KeepsIndex s t ∧ KeepsTimer s t ∧ KeepsScreen s t ∧ KeepsPhase s t

/-- LD Vx, [I] inside memory: V0 to Vx, x included, from I upward; I unchanged (rules R124, R126). -/
def Obligations.RegisterBlockLoad : Prop :=
  ∀ (x : RegIdx) (s : State), s.base + x.val ≤ 0xFFF → ∃ t, exec (.ldRegs x) s = .next t ∧
    (∀ r : RegIdx, r.val ≤ x.val → t.v r = s.mem.byte (s.base + r.val)) ∧
    (∀ r : RegIdx, x.val < r.val → t.v r = s.v r) ∧
    KeepsMemory s t ∧ AdvancesBy 2 s t ∧ KeepsStack s t ∧ KeepsIndex s t ∧ KeepsTimer s t ∧
    KeepsScreen s t ∧ KeepsPhase s t

/-- A data access past 0xFFF faults with the first address past it and does nothing; where I is at most 0x0FFF,
as in every reachable state, that address is 0x1000 (rules R35, R155; the spec's decisions D6, D24; for a larger
I, which no run reaches, the address is assumption log 4). -/
def Obligations.DataAccessPastTheEndFaults : Prop :=
  ∀ (x y : RegIdx) (n : Nat) (s : State), ∃ a, (s.base ≤ 0xFFF → a = 0x1000) ∧
    (0xFFF < s.base + 2 → exec (.ldBcd x) s = .fault (.dataAddressOutOfRange a)) ∧
    (0xFFF < s.base + x.val → exec (.stRegs x) s = .fault (.dataAddressOutOfRange a)) ∧
    (0xFFF < s.base + x.val → exec (.ldRegs x) s = .fault (.dataAddressOutOfRange a)) ∧
    (0 < n → 0xFFF < s.base + n - 1 → exec (.drw x y n) s = .fault (.dataAddressOutOfRange a))

/-- Store-then-load identity (rule R125): an Fx65 after an Fx55 with the same x and I gives V0 to Vx back,
whatever happened to everything but those bytes and I in between. -/
def Obligations.StoreThenLoadGivesTheRegistersBack : Prop :=
  ∀ (x : RegIdx) (s t u : State), exec (.stRegs x) s = .next t → u.i = s.i →
    (∀ a, s.base ≤ a → a ≤ s.base + x.val → u.mem.byte a = t.mem.byte a) →
    ∃ r, exec (.ldRegs x) u = .next r ∧ ∀ k : RegIdx, k.val ≤ x.val → r.v k = s.v k

/-- A store is seen by the very next fetch, high byte first, with no other action (rule R42). -/
def Obligations.NextFetchSeesTheStore : Prop :=
  ∀ (x r q : RegIdx) (s t u : State), exec (.stRegs x) s = .next t → q.val = r.val + 1 → q.val ≤ x.val →
    u.mem = t.mem → u.pc.toNat = s.base + r.val → 0x0200 ≤ u.pc.toNat → fetch u = .ok (s.v r ++ s.v q)

/-- Memories in canonical form that read alike everywhere are equal data (the model's own form, assumption
log 3). -/
def Obligations.CanonicalMemoriesThatReadAlikeAreEqual : Prop :=
  ∀ m m' : Memory, m.wf → m'.wf → (∀ a, m.byte a = m'.byte a) → m = m'

/-! ### The framebuffer and the display instructions (45_display.md) -/

/-- toggle XORs one cell, coordinates modulo width and height, and answers whether it was on (rule R132). -/
def Obligations.ToggleMutatesExactlyOneCell : Prop :=
  ∀ (fb : Screen) (x y : Nat) (bit : Bool),
    (fb.toggle x y bit).2 = fb.pixel (x % 64) (y % 32) ∧
    (fb.toggle x y bit).1.pixel (x % 64) (y % 32) = Bool.xor (fb.pixel (x % 64) (y % 32)) bit ∧
    ∀ x' y', x' < 64 → y' < 32 → ¬(x' = x % 64 ∧ y' = y % 32) →
      (fb.toggle x y bit).1.pixel x' y' = fb.pixel x' y'

/-- CLS turns every pixel off and touches nothing else (rules R131, R134). -/
def Obligations.ClsClearsTheScreen : Prop :=
  decode 0x00E0 = .ok .cls ∧ ∀ s : State, ∃ t, exec .cls s = .next t ∧
    (∀ x y, x < 64 → y < 32 → t.fb.pixel x y = false) ∧ t.fb = Screen.clear ∧ AdvancesBy 2 s t ∧
    KeepsRegs [] s t ∧ KeepsMemory s t ∧ KeepsStack s t ∧ KeepsIndex s t ∧ KeepsTimer s t ∧ KeepsPhase s t

/-- DRW inside memory XORs the sprite placed with wrap onto the framebuffer, pixel by pixel, and sets VF to 1
exactly if a pixel was on where the sprite has a 1 (rules R136 to R142). Height 0 draws nothing and clears VF.
The bit order is the spec's decision D8, the coordinates read before VF D9, the collision term D16. -/
def Obligations.DrawIsXorWithTheSprite : Prop :=
  ∀ (x y : RegIdx) (n : Nat) (s : State), n < 16 → (n = 0 ∨ s.base + n - 1 ≤ 0xFFF) →
    ∃ t, exec (.drw x y n) s = .next t ∧
      (∀ px py, px < 64 → py < 32 → t.fb.pixel px py = Bool.xor (s.fb.pixel px py)
        (spritePixel (s.v x).toNat (s.v y).toNat (spriteRows s n) px py)) ∧
      (Collides s.fb (s.v x).toNat (s.v y).toNat (spriteRows s n) → t.v VF = 1) ∧
      (¬Collides s.fb (s.v x).toNat (s.v y).toNat (spriteRows s n) → t.v VF = 0) ∧
      AdvancesBy 2 s t ∧ KeepsRegs [VF] s t ∧ KeepsMemory s t ∧ KeepsStack s t ∧ KeepsIndex s t ∧
      KeepsTimer s t ∧ KeepsPhase s t

/-- Drawing the same sprite twice at the same place restores the framebuffer, and the second draw reports VF = 1
if the first one turned some pixel on (rules R139, R140; the collision term is the spec's decision D16). The
coordinates are not in VF, which the first draw writes. -/
def Obligations.DrawingTwiceRestoresTheScreen : Prop :=
  ∀ (x y : RegIdx) (n : Nat) (s t : State), n < 16 → x ≠ VF → y ≠ VF → exec (.drw x y n) s = .next t →
    ∃ u, exec (.drw x y n) t = .next u ∧ u.fb = s.fb ∧
      ((∃ px py, px < 64 ∧ py < 32 ∧ s.fb.pixel px py = false ∧ t.fb.pixel px py = true) → u.v VF = 1)
end

