-- ==== Sys2Proof/Laws/Decode.lean ====
section
/-!
SUPPORT. What the decoder can answer: a row's instruction exactly for the words the row accepts, since no word
is accepted by two rows (30_encoding.md rule R54).
-/

namespace Sys2Proof.Laws

/-- Two rows differ in a literal bit both have. -/
def rowsDiffer (r q : OpcodeRow) : Bool := (r.value ^^^ q.value) &&& r.mask &&& q.mask != 0

/-- Any two rows of the table differ in a literal bit. -/
theorem opcodeTable_rows_differ : opcodeTable.Pairwise (fun r q => rowsDiffer r q = true) := by decide

theorem accepts_iff {r : OpcodeRow} {w : Word} : r.accepts w = true ↔ w &&& r.mask = r.value := by
  simp [OpcodeRow.accepts]

/-- A word two rows accept: the rows have the same bits wherever both are literal. -/
theorem not_rowsDiffer_of_accepts {r q : OpcodeRow} {w : Word} (hr : r.accepts w = true)
    (hq : q.accepts w = true) : rowsDiffer r q = false := by
  rw [accepts_iff] at hr hq
  rw [rowsDiffer, bne_eq_false_iff_eq, ← hr, ← hq]
  ext k hk
  simp
  cases w[k] <;> cases r.mask[k] <;> cases q.mask[k] <;> simp

/-- The decoder answers the instruction a row of the table builds of a word the row accepts. -/
theorem decode_ok {w : Word} {i : Instr} (h : decode w = .ok i) :
    ∃ r ∈ opcodeTable, r.accepts w = true ∧ i = r.build w := by
  unfold decode at h
  split at h
  · next r hr =>
    exact ⟨r, List.mem_of_find?_eq_some hr, by simpa using List.find?_some hr, (Except.ok.inj h).symm⟩
  · cases h

/-- The decoder rejects with the word itself, and only words no row accepts. -/
theorem decode_error {w : Word} {e : DecodeError} (h : decode w = .error e) :
    e = .unimplementedOpcode w ∧ ∀ r ∈ opcodeTable, r.accepts w = false := by
  unfold decode at h
  split at h
  · cases h
  · next hn => exact ⟨(Except.error.inj h).symm, by simpa using hn⟩

/-- A word a row accepts decodes to what that row builds of it. -/
theorem decode_of_accepts {w : Word} {r : OpcodeRow} (hr : r ∈ opcodeTable) (ha : r.accepts w = true) :
    decode w = .ok (r.build w) := by
  unfold decode
  have hf : opcodeTable.find? (fun q => q.accepts w) = some r := by
    have hp := opcodeTable_rows_differ
    generalize opcodeTable = t at hr hp
    induction t with
    | nil => cases hr
    | cons q t ih =>
      rw [List.pairwise_cons] at hp
      rcases List.mem_cons.mp hr with rfl | hr
      · simp [ha]
      · have hq : q.accepts w = false := by
          by_contra hq
          have := not_rowsDiffer_of_accepts (Bool.not_eq_false _ ▸ hq) ha
          rw [hp.1 r hr] at this
          cases this
        simp [hq, ih hr hp.2]
  rw [hf]

/-- Every decoded instruction is well formed. -/
theorem decode_wellFormed {w : Word} {i : Instr} (h : decode w = .ok i) : i.wellFormed = true := by
  obtain ⟨r, hr, -, rfl⟩ := decode_ok h
  have hall : ∀ r ∈ opcodeTable, (r.build w).wellFormed = true := by
    simp [opcodeTable, rowCls, rowRet, rowJp, rowCall, rowSeImm, rowSneImm, rowSeReg, rowLdImm, rowAddImm,
      rowLdReg, rowOr, rowAnd, rowXor, rowAddReg, rowSub, rowShr, rowSubn, rowShl, rowSneReg, rowLdI, rowJpV0,
      rowDrw, rowLdDt, rowLdBcd, rowStRegs, rowLdRegs, Instr.wellFormed, fieldN, -BitVec.extractLsb'_toNat]
    exact BitVec.isLt _
  exact hall r hr

end Sys2Proof.Laws
end

