-- ==== Sys2Proof/Laws/Memory.lean ====
section
/-!
SUPPORT. The laws of memory: a read after a write, of one byte and of a block, and that every memory operation
keeps the canonical form.
-/

namespace Sys2Proof.Machine

theorem Memory.byte_nil (b : Nat) : Memory.byte [] b = Memory.initial b := rfl

theorem Memory.byte_cons (c : Host.Cell) (m : Memory) (b : Nat) :
    Memory.byte (c :: m) b = if c.1 = b then c.2 else m.byte b := by
  by_cases h : c.1 = b <;> simp [Memory.byte, h]

theorem Memory.mem_without {m : Memory} {a : Nat} {c : Host.Cell} :
    c ∈ m.without a ↔ c ∈ m ∧ c.1 ≠ a := by
  simp [Memory.without]

theorem Memory.byte_without (m : Memory) (a b : Nat) :
    (m.without a).byte b = if b = a then Memory.initial a else m.byte b := by
  induction m with
  | nil => simp only [Memory.without, List.filter_nil, Memory.byte_nil]; split <;> simp_all
  | cons c m ih =>
    unfold Memory.without at ih ⊢
    by_cases h : c.1 = a
    · simp only [h, bne_self_eq_false, Bool.false_eq_true, not_false_eq_true, List.filter_cons_of_neg, ih,
        Memory.byte_cons]
      split <;> simp_all [eq_comm]
    · rw [List.filter_cons_of_pos (by simpa using h), Memory.byte_cons, Memory.byte_cons, ih]
      split <;> split <;> simp_all

theorem Memory.mem_insertCell {c d : Host.Cell} {m : Memory} :
    d ∈ Memory.insertCell c m ↔ d = c ∨ d ∈ m := by
  induction m with
  | nil => simp [Memory.insertCell]
  | cons e m ih =>
    simp only [Memory.insertCell]
    split
    · simp
    · simp [ih]; tauto

theorem Memory.byte_insertCell (c : Host.Cell) (m : Memory) (h : ∀ d ∈ m, d.1 ≠ c.1) (b : Nat) :
    (Memory.insertCell c m).byte b = if c.1 = b then c.2 else m.byte b := by
  induction m with
  | nil => simp [Memory.insertCell, Memory.byte_cons]
  | cons e m ih =>
    simp only [Memory.insertCell]
    split
    · simp [Memory.byte_cons]
    · have he := h e (by simp)
      rw [Memory.byte_cons, ih (fun d hd => h d (by simp [hd])), Memory.byte_cons]
      split <;> split <;> simp_all

/-- A byte written reads back, and every other byte reads as before: for any memory, canonical or not. -/
@[simp] theorem Memory.byte_put (m : Memory) (a b : Nat) (v : Byte) :
    (m.put a v).byte b = if b = a then v else m.byte b := by
  unfold Memory.put
  split
  · next h => rw [Memory.byte_without, h]
  · rw [Memory.byte_insertCell _ _ (fun d hd => (Memory.mem_without.mp hd).2), Memory.byte_without]
    simp only [eq_comm (a := a)]
    split <;> rfl

/-- A block written reads back byte for byte, and every byte outside it reads as before. -/
theorem Memory.byte_putBytes (m : Memory) (a : Nat) (bs : List Byte) (b : Nat) :
    (m.putBytes a bs).byte b = if a ≤ b then bs.getD (b - a) (m.byte b) else m.byte b := by
  induction bs generalizing m a with
  | nil => simp [Memory.putBytes]
  | cons v bs ih =>
    simp only [Memory.putBytes, ih, Memory.byte_put]
    by_cases h : a + 1 ≤ b
    · have hk : b - a = b - (a + 1) + 1 := by omega
      simp [h, show a ≤ b by omega, show b ≠ a by omega, hk]
    · by_cases h2 : b = a
      · subst h2; simp
      · simp [h, h2, show ¬a ≤ b by omega]

@[simp] theorem Memory.getBytes_length (m : Memory) (a n : Nat) : (m.getBytes a n).length = n := by
  simp [Memory.getBytes]

/-- The k-th byte of a block read is the byte at `a + k`. -/
theorem Memory.getBytes_getD (m : Memory) (a n k : Nat) (d : Byte) :
    (m.getBytes a n).getD k d = if k < n then m.byte (a + k) else d := by
  by_cases h : k < n <;> simp [Memory.getBytes, List.getD_eq_getElem?_getD, h]

/-! ### The canonical form -/

theorem Memory.nil_wf : Memory.wf [] := ⟨List.Pairwise.nil, fun c hc => by cases hc⟩

theorem Memory.without_wf {m : Memory} (h : m.wf) (a : Nat) : (m.without a).wf :=
  ⟨h.1.filter _, fun c hc => h.2 c (Memory.mem_without.mp hc).1⟩

theorem Memory.insertCell_pairwise {m : Memory} {c : Host.Cell} (h : m.Pairwise (fun c d => c.1 < d.1))
    (hc : ∀ d ∈ m, d.1 ≠ c.1) : (Memory.insertCell c m).Pairwise (fun c d => c.1 < d.1) := by
  induction m with
  | nil => simp [Memory.insertCell]
  | cons e m ih =>
    obtain ⟨he, hm⟩ := List.pairwise_cons.mp h
    simp only [Memory.insertCell]
    split
    · next hlt =>
      refine List.pairwise_cons.mpr ⟨fun d hd => ?_, h⟩
      rcases List.mem_cons.mp hd with rfl | hd
      · exact hlt
      · exact lt_trans hlt (he d hd)
    · next hlt =>
      have hne := hc e (by simp)
      refine List.pairwise_cons.mpr ⟨fun d hd => ?_, ih hm (fun d hd => hc d (by simp [hd]))⟩
      rcases Memory.mem_insertCell.mp hd with rfl | hd
      · omega
      · exact he d hd

/-- A write inside the 4096 bytes keeps the canonical form. -/
theorem Memory.put_wf {m : Memory} (h : m.wf) {a : Nat} (ha : a < 0x1000) (v : Byte) : (m.put a v).wf := by
  unfold Memory.put
  split
  · exact Memory.without_wf h a
  · next hv =>
    have hw := Memory.without_wf h a
    refine ⟨Memory.insertCell_pairwise hw.1 (fun d hd => (Memory.mem_without.mp hd).2), fun c hc => ?_⟩
    rcases Memory.mem_insertCell.mp hc with rfl | hc
    · exact ⟨ha, hv⟩
    · exact hw.2 c hc

/-- A block write inside the 4096 bytes keeps the canonical form. -/
theorem Memory.putBytes_wf {m : Memory} (h : m.wf) {a : Nat} (bs : List Byte) (ha : a + bs.length ≤ 0x1000) :
    (m.putBytes a bs).wf := by
  induction bs generalizing m a with
  | nil => exact h
  | cons b bs ih =>
    simp only [List.length_cons] at ha
    exact ih (Memory.put_wf h (by omega) b) (by omega)

end Sys2Proof.Machine
end

