-- ==== Sys2Proof/Laws/State.lean ====
section
/-!
SUPPORT. One lemma per field per update of the state, so that no proof unfolds a record update, and what the
register reads give after each update.
-/

namespace Sys2Proof.Machine

variable (s : State)

/-! ### advance -/

@[simp] theorem State.advance_regs : (s.advance).regs = s.regs := rfl
@[simp] theorem State.advance_pc : (s.advance).pc = s.pc + 2 := rfl
@[simp] theorem State.advance_i : (s.advance).i = s.i := rfl
@[simp] theorem State.advance_sp : (s.advance).sp = s.sp := rfl
@[simp] theorem State.advance_stack : (s.advance).stack = s.stack := rfl
@[simp] theorem State.advance_dt : (s.advance).dt = s.dt := rfl
@[simp] theorem State.advance_mem : (s.advance).mem = s.mem := rfl
@[simp] theorem State.advance_fb : (s.advance).fb = s.fb := rfl
@[simp] theorem State.advance_stepped : (s.advance).stepped = s.stepped := rfl
@[simp] theorem State.advance_v (r : RegIdx) : (s.advance).v r = s.v r := rfl

/-! ### skip -/

@[simp] theorem State.skip_regs : (s.skip).regs = s.regs := rfl
@[simp] theorem State.skip_pc : (s.skip).pc = s.pc + 4 := rfl
@[simp] theorem State.skip_i : (s.skip).i = s.i := rfl
@[simp] theorem State.skip_sp : (s.skip).sp = s.sp := rfl
@[simp] theorem State.skip_stack : (s.skip).stack = s.stack := rfl
@[simp] theorem State.skip_dt : (s.skip).dt = s.dt := rfl
@[simp] theorem State.skip_mem : (s.skip).mem = s.mem := rfl
@[simp] theorem State.skip_fb : (s.skip).fb = s.fb := rfl
@[simp] theorem State.skip_stepped : (s.skip).stepped = s.stepped := rfl
@[simp] theorem State.skip_v (r : RegIdx) : (s.skip).v r = s.v r := rfl

/-! ### jump -/

@[simp] theorem State.jump_regs (a : Word) : (s.jump a).regs = s.regs := rfl
@[simp] theorem State.jump_pc (a : Word) : (s.jump a).pc = a := rfl
@[simp] theorem State.jump_i (a : Word) : (s.jump a).i = s.i := rfl
@[simp] theorem State.jump_sp (a : Word) : (s.jump a).sp = s.sp := rfl
@[simp] theorem State.jump_stack (a : Word) : (s.jump a).stack = s.stack := rfl
@[simp] theorem State.jump_dt (a : Word) : (s.jump a).dt = s.dt := rfl
@[simp] theorem State.jump_mem (a : Word) : (s.jump a).mem = s.mem := rfl
@[simp] theorem State.jump_fb (a : Word) : (s.jump a).fb = s.fb := rfl
@[simp] theorem State.jump_stepped (a : Word) : (s.jump a).stepped = s.stepped := rfl
@[simp] theorem State.jump_v (a : Word) (r : RegIdx) : (s.jump a).v r = s.v r := rfl

/-! ### setV -/

@[simp] theorem State.setV_pc (x : RegIdx) (b : Byte) : (s.setV x b).pc = s.pc := rfl
@[simp] theorem State.setV_i (x : RegIdx) (b : Byte) : (s.setV x b).i = s.i := rfl
@[simp] theorem State.setV_sp (x : RegIdx) (b : Byte) : (s.setV x b).sp = s.sp := rfl
@[simp] theorem State.setV_stack (x : RegIdx) (b : Byte) : (s.setV x b).stack = s.stack := rfl
@[simp] theorem State.setV_dt (x : RegIdx) (b : Byte) : (s.setV x b).dt = s.dt := rfl
@[simp] theorem State.setV_mem (x : RegIdx) (b : Byte) : (s.setV x b).mem = s.mem := rfl
@[simp] theorem State.setV_fb (x : RegIdx) (b : Byte) : (s.setV x b).fb = s.fb := rfl
@[simp] theorem State.setV_stepped (x : RegIdx) (b : Byte) : (s.setV x b).stepped = s.stepped := rfl

/-! ### setRegs -/

@[simp] theorem State.setRegs_pc (bs : List Byte) : (s.setRegs bs).pc = s.pc := rfl
@[simp] theorem State.setRegs_i (bs : List Byte) : (s.setRegs bs).i = s.i := rfl
@[simp] theorem State.setRegs_sp (bs : List Byte) : (s.setRegs bs).sp = s.sp := rfl
@[simp] theorem State.setRegs_stack (bs : List Byte) : (s.setRegs bs).stack = s.stack := rfl
@[simp] theorem State.setRegs_dt (bs : List Byte) : (s.setRegs bs).dt = s.dt := rfl
@[simp] theorem State.setRegs_mem (bs : List Byte) : (s.setRegs bs).mem = s.mem := rfl
@[simp] theorem State.setRegs_fb (bs : List Byte) : (s.setRegs bs).fb = s.fb := rfl
@[simp] theorem State.setRegs_stepped (bs : List Byte) : (s.setRegs bs).stepped = s.stepped := rfl

/-! ### beginStep -/

@[simp] theorem State.beginStep_regs : (s.beginStep).regs = s.regs := rfl
@[simp] theorem State.beginStep_pc : (s.beginStep).pc = s.pc := rfl
@[simp] theorem State.beginStep_i : (s.beginStep).i = s.i := rfl
@[simp] theorem State.beginStep_sp : (s.beginStep).sp = s.sp := rfl
@[simp] theorem State.beginStep_stack : (s.beginStep).stack = s.stack := rfl
@[simp] theorem State.beginStep_dt : (s.beginStep).dt = timerTick s.dt := rfl
@[simp] theorem State.beginStep_mem : (s.beginStep).mem = s.mem := rfl
@[simp] theorem State.beginStep_fb : (s.beginStep).fb = s.fb := rfl
@[simp] theorem State.beginStep_stepped : (s.beginStep).stepped = true := rfl
@[simp] theorem State.beginStep_v (r : RegIdx) : (s.beginStep).v r = s.v r := rfl

/-! ### setResultFlag -/

@[simp] theorem State.setResultFlag_pc (x : RegIdx) (r f : Byte) : (s.setResultFlag x r f).pc = s.pc := rfl
@[simp] theorem State.setResultFlag_i (x : RegIdx) (r f : Byte) : (s.setResultFlag x r f).i = s.i := rfl
@[simp] theorem State.setResultFlag_sp (x : RegIdx) (r f : Byte) : (s.setResultFlag x r f).sp = s.sp := rfl
@[simp] theorem State.setResultFlag_stack (x : RegIdx) (r f : Byte) : (s.setResultFlag x r f).stack = s.stack := rfl
@[simp] theorem State.setResultFlag_dt (x : RegIdx) (r f : Byte) : (s.setResultFlag x r f).dt = s.dt := rfl
@[simp] theorem State.setResultFlag_mem (x : RegIdx) (r f : Byte) : (s.setResultFlag x r f).mem = s.mem := rfl
@[simp] theorem State.setResultFlag_fb (x : RegIdx) (r f : Byte) : (s.setResultFlag x r f).fb = s.fb := rfl
@[simp] theorem State.setResultFlag_stepped (x : RegIdx) (r f : Byte) : (s.setResultFlag x r f).stepped = s.stepped := rfl

/-! ### addCarry -/

@[simp] theorem State.addCarry_pc (x : RegIdx) (a b : Byte) : (s.addCarry x a b).pc = s.pc := rfl
@[simp] theorem State.addCarry_i (x : RegIdx) (a b : Byte) : (s.addCarry x a b).i = s.i := rfl
@[simp] theorem State.addCarry_sp (x : RegIdx) (a b : Byte) : (s.addCarry x a b).sp = s.sp := rfl
@[simp] theorem State.addCarry_stack (x : RegIdx) (a b : Byte) : (s.addCarry x a b).stack = s.stack := rfl
@[simp] theorem State.addCarry_dt (x : RegIdx) (a b : Byte) : (s.addCarry x a b).dt = s.dt := rfl
@[simp] theorem State.addCarry_mem (x : RegIdx) (a b : Byte) : (s.addCarry x a b).mem = s.mem := rfl
@[simp] theorem State.addCarry_fb (x : RegIdx) (a b : Byte) : (s.addCarry x a b).fb = s.fb := rfl
@[simp] theorem State.addCarry_stepped (x : RegIdx) (a b : Byte) : (s.addCarry x a b).stepped = s.stepped := rfl

/-! ### loadImage -/

@[simp] theorem State.loadImage_regs (bs : List Byte) : (s.loadImage bs).regs = s.regs := rfl
@[simp] theorem State.loadImage_pc (bs : List Byte) : (s.loadImage bs).pc = s.pc := rfl
@[simp] theorem State.loadImage_i (bs : List Byte) : (s.loadImage bs).i = s.i := rfl
@[simp] theorem State.loadImage_sp (bs : List Byte) : (s.loadImage bs).sp = s.sp := rfl
@[simp] theorem State.loadImage_stack (bs : List Byte) : (s.loadImage bs).stack = s.stack := rfl
@[simp] theorem State.loadImage_dt (bs : List Byte) : (s.loadImage bs).dt = s.dt := rfl
@[simp] theorem State.loadImage_fb (bs : List Byte) : (s.loadImage bs).fb = s.fb := rfl
@[simp] theorem State.loadImage_stepped (bs : List Byte) : (s.loadImage bs).stepped = s.stepped := rfl
@[simp] theorem State.loadImage_v (bs : List Byte) (r : RegIdx) : (s.loadImage bs).v r = s.v r := rfl

/-! ### skipIf -/

@[simp] theorem State.skipIf_regs (c : Bool) : (s.skipIf c).regs = s.regs := by cases c <;> rfl
@[simp] theorem State.skipIf_i (c : Bool) : (s.skipIf c).i = s.i := by cases c <;> rfl
@[simp] theorem State.skipIf_sp (c : Bool) : (s.skipIf c).sp = s.sp := by cases c <;> rfl
@[simp] theorem State.skipIf_stack (c : Bool) : (s.skipIf c).stack = s.stack := by cases c <;> rfl
@[simp] theorem State.skipIf_dt (c : Bool) : (s.skipIf c).dt = s.dt := by cases c <;> rfl
@[simp] theorem State.skipIf_mem (c : Bool) : (s.skipIf c).mem = s.mem := by cases c <;> rfl
@[simp] theorem State.skipIf_fb (c : Bool) : (s.skipIf c).fb = s.fb := by cases c <;> rfl
@[simp] theorem State.skipIf_stepped (c : Bool) : (s.skipIf c).stepped = s.stepped := by cases c <;> rfl
@[simp] theorem State.skipIf_v (c : Bool) (r : RegIdx) : (s.skipIf c).v r = s.v r := by cases c <;> rfl
@[simp] theorem State.skipIf_pc (c : Bool) : (s.skipIf c).pc = if c then s.pc + 4 else s.pc + 2 := by
  cases c <;> rfl

/-! ### Updates of other fields leave the registers -/

@[simp] theorem State.v_with_i (a : Word) (r : RegIdx) : State.v { s with i := a } r = s.v r := rfl
@[simp] theorem State.v_with_dt (a : Byte) (r : RegIdx) : State.v { s with dt := a } r = s.v r := rfl
@[simp] theorem State.v_with_mem (m : Memory) (r : RegIdx) : State.v { s with mem := m } r = s.v r := rfl
@[simp] theorem State.v_with_fb (f : Screen) (r : RegIdx) : State.v { s with fb := f } r = s.v r := rfl

/-! ### Register reads after register writes (rules R10, R11) -/

@[simp] theorem State.setV_v (x r : RegIdx) (b : Byte) : (s.setV x b).v r = if r = x then b else s.v r := by
  simp only [State.v, State.setV, Vector.get_eq_getElem, Vector.getElem_set, Fin.ext_iff, eq_comm]

@[simp] theorem State.setRegs_v (bs : List Byte) (r : RegIdx) :
    (s.setRegs bs).v r = bs.getD r.val (s.v r) := by
  simp [State.v, State.setRegs, Vector.get_eq_getElem]

/-- The flag is written last: with x = 15 it replaces the result. -/
@[simp] theorem State.setResultFlag_v (x r : RegIdx) (a f : Byte) :
    (s.setResultFlag x a f).v r = if r = VF then f else if r = x then a else s.v r := by
  simp [State.setResultFlag]

@[simp] theorem State.addCarry_v (x r : RegIdx) (a b : Byte) :
    (s.addCarry x a b).v r =
      if r = VF then flagByte (carry a b) else if r = x then a + b else s.v r := by
  simp [State.addCarry]

/-- Two states are equal if all they hold is. -/
theorem State.ext_parts {s t : State} (hv : ∀ r, s.v r = t.v r) (hpc : s.pc = t.pc) (hi : s.i = t.i)
    (hsp : s.sp = t.sp) (hst : s.stack = t.stack) (hdt : s.dt = t.dt) (hm : s.mem = t.mem) (hf : s.fb = t.fb)
    (hp : s.stepped = t.stepped) : s = t := by
  have hr : s.regs = t.regs := by
    apply Vector.ext
    intro k hk
    exact hv ⟨k, hk⟩
  cases s
  cases t
  simp_all

end Sys2Proof.Machine
end

