-- ==== Sys2Proof/Laws/Ops.lean ====
section
/-!
SUPPORT. Everything each shared operation can do, once: the provers cite these and do not unfold.
-/

namespace Sys2Proof.Machine

/-! ### Data accesses (rule R35) -/

theorem rangeFault_none {a n : Nat} : rangeFault a n = none ↔ n = 0 ∨ a + n ≤ 0x1000 := by
  unfold rangeFault
  split <;> simp <;> omega

theorem rangeFault_some {a n : Nat} {f : Fault} :
    rangeFault a n = some f ↔ (n ≠ 0 ∧ 0x1000 < a + n) ∧ f = .dataAddressOutOfRange (max a 0x1000) := by
  unfold rangeFault
  split
  · next h =>
    constructor
    · intro e
      exact ⟨⟨h.1, by omega⟩, (Option.some.inj e).symm⟩
    · rintro ⟨-, rfl⟩
      rfl
  · next h =>
    constructor
    · intro e
      simp at e
    · rintro ⟨⟨h1, h2⟩, -⟩
      omega

theorem loadBytes_ok {m : Memory} {a n : Nat} {bs : List Byte} :
    loadBytes m a n = .ok bs ↔ (n = 0 ∨ a + n ≤ 0x1000) ∧ bs = m.getBytes a n := by
  unfold loadBytes
  split
  · next f h => simp; intro h2; rw [← rangeFault_none, h] at h2; simp at h2
  · next h => simp [← rangeFault_none, h, eq_comm]

theorem loadBytes_error {m : Memory} {a n : Nat} {f : Fault} :
    loadBytes m a n = .error f ↔ (n ≠ 0 ∧ 0x1000 < a + n) ∧ f = .dataAddressOutOfRange (max a 0x1000) := by
  rw [← rangeFault_some]
  unfold loadBytes
  split <;> simp_all

theorem storeBytes_ok {m m' : Memory} {a : Nat} {bs : List Byte} :
    storeBytes m a bs = .ok m' ↔ (bs.length = 0 ∨ a + bs.length ≤ 0x1000) ∧ m' = m.putBytes a bs := by
  unfold storeBytes
  split
  · next f h => simp only [reduceCtorEq, false_iff, not_and]; intro h2; rw [← rangeFault_none, h] at h2; simp at h2
  · next h => rw [← rangeFault_none]; simp [h, eq_comm]

theorem storeBytes_error {m : Memory} {a : Nat} {bs : List Byte} {f : Fault} :
    storeBytes m a bs = .error f ↔
      (bs.length ≠ 0 ∧ 0x1000 < a + bs.length) ∧ f = .dataAddressOutOfRange (max a 0x1000) := by
  rw [← rangeFault_some]
  unfold storeBytes
  split <;> simp_all

/-- A store that succeeds keeps the canonical form. -/
theorem storeBytes_wf {m m' : Memory} {a : Nat} {bs : List Byte} (h : m.wf) (e : storeBytes m a bs = .ok m') :
    m'.wf := by
  obtain ⟨hr, rfl⟩ := storeBytes_ok.mp e
  rcases hr with hr | hr
  · rw [List.length_eq_zero_iff.mp hr]
    exact h
  · exact Memory.putBytes_wf h bs hr

/-! ### The operand blocks -/

@[simp] theorem bcdDigits_length (b : Byte) : (bcdDigits b).length = 3 := rfl

@[simp] theorem State.block_length (s : State) (x : RegIdx) : (s.block x).length = x.val + 1 := by
  simp only [State.block, List.length_take, Vector.length_toList]; omega

/-- The k-th byte of the block is V[k], for k up to x. -/
theorem State.block_getD (s : State) (x r : RegIdx) (h : r ≤ x) (d : Byte) :
    (s.block x).getD r.val d = s.v r := by
  have h1 : r.val < x.val + 1 := by have := Fin.le_def.mp h; omega
  simp [State.block, State.v, List.getD_eq_getElem?_getD, h1, Vector.get_eq_getElem]

/-! ### The call stack (rule R17) -/

theorem State.push_ok {s t : State} {a : Word} :
    s.push a = .ok t ↔ ∃ h : s.sp.val < 16,
      t = { s with stack := s.stack.set s.sp.val a h, sp := ⟨s.sp.val + 1, by omega⟩ } := by
  unfold State.push
  split <;> simp_all [eq_comm]

theorem State.push_error {s : State} {a : Word} {f : Fault} :
    s.push a = .error f ↔ s.sp.val = 16 ∧ f = .stackOverflow := by
  unfold State.push
  split <;> simp [eq_comm] <;> omega

theorem State.pop_ok {s t : State} {a : Word} :
    s.pop = .ok (a, t) ↔ ∃ _h : s.sp.val ≠ 0,
      a = s.stack[s.sp.val - 1]'(by omega) ∧ t = { s with sp := ⟨s.sp.val - 1, by omega⟩ } := by
  unfold State.pop
  split <;> simp_all [eq_comm]

theorem State.pop_error {s : State} {f : Fault} :
    s.pop = .error f ↔ s.sp.val = 0 ∧ f = .stackUnderflow := by
  unfold State.pop
  split <;> simp_all [eq_comm]

/-! ### The fetch (rule R72) -/

theorem fetch_ok {s : State} {w : Word} :
    fetch s = .ok w ↔ (0x200 ≤ s.pc.toNat ∧ s.pc.toNat ≤ 0xFFE) ∧ w = s.mem.word s.pc.toNat := by
  unfold fetch
  split
  · next h => simp at h ⊢; omega
  · next h => simp at h ⊢; simp [h, eq_comm]

theorem fetch_error {s : State} {f : Fault} :
    fetch s = .error f ↔ (s.pc.toNat < 0x200 ∨ 0xFFE < s.pc.toNat) ∧ f = .fetchOutOfRange s.pc := by
  unfold fetch
  split
  · next h => simp at h ⊢; simp [h, eq_comm]
  · next h => simp at h ⊢; omega

end Sys2Proof.Machine
end

