-- ==== Sys2Proof/Laws/PerInstr.lean ====
section
/-!
SUPPORT. Per instruction: its word has the literal bits of its own row of the opcode table (30_encoding.md rule
R56), whatever its operands.
-/

namespace Sys2Proof.Laws

/-- The word of the instruction is accepted by the instruction's own row. -/
def OwnRow.Statement (i : Instr) : Prop := encode i &&& (rowOf i).mask = (rowOf i).value

theorem and_nibble (a : BitVec 4) : a &&& 15#4 = a := BitVec.and_allOnes
theorem and_byte (a : Byte) : a &&& 255#8 = a := BitVec.and_allOnes

theorem formatA_masked (op : BitVec 4) (nnn : Addr) :
    formatA op nnn &&& 0xF000 = op ++ 0#12 := by
  rw [formatA, show (0xF000 : Word) = 0xF#4 ++ 0x000#12 from rfl, BitVec.and_append]
  simp [and_nibble]

theorem formatXI_masked (op : BitVec 4) (x : RegIdx) (nn : Byte) :
    formatXI op x nn &&& 0xF000 = op ++ 0#12 := by
  rw [formatXI, show (0xF000 : Word) = 0xF#4 ++ 0x000#12 from rfl, BitVec.and_append]
  simp [and_nibble]

theorem formatXY_masked (op : BitVec 4) (x y : RegIdx) (last : BitVec 4) :
    formatXY op x y last &&& 0xF00F = op ++ (0#4 ++ (0#4 ++ last)) := by
  rw [formatXY, show (0xF00F : Word) = 0xF#4 ++ (0#4 ++ (0#4 ++ 0xF#4)) from rfl, BitVec.and_append,
    BitVec.and_append, BitVec.and_append]
  simp [and_nibble]

theorem formatXYN_masked (op : BitVec 4) (x y : RegIdx) (n : BitVec 4) :
    formatXY op x y n &&& 0xF000 = op ++ 0#12 := by
  rw [formatXY, show (0xF000 : Word) = 0xF#4 ++ 0x000#12 from rfl, BitVec.and_append]
  simp [and_nibble]

theorem formatXS_masked (x : RegIdx) (low : Byte) :
    formatXS x low &&& 0xF0FF = 0xF#4 ++ (0#4 ++ low) := by
  rw [formatXS, show (0xF0FF : Word) = 0xF#4 ++ (0#4 ++ 0xFF#8) from rfl, BitVec.and_append, BitVec.and_append]
  simp [and_byte]

theorem OwnRow.cls : OwnRow.Statement .cls := rfl
theorem OwnRow.ret : OwnRow.Statement .ret := rfl
theorem OwnRow.jp (nnn : Addr) : OwnRow.Statement (.jp nnn) := formatA_masked _ _
theorem OwnRow.call (nnn : Addr) : OwnRow.Statement (.call nnn) := formatA_masked _ _
theorem OwnRow.seImm (x : RegIdx) (nn : Byte) : OwnRow.Statement (.seImm x nn) := formatXI_masked _ _ _
theorem OwnRow.sneImm (x : RegIdx) (nn : Byte) : OwnRow.Statement (.sneImm x nn) := formatXI_masked _ _ _
theorem OwnRow.seReg (x y : RegIdx) : OwnRow.Statement (.seReg x y) := formatXY_masked _ _ _ _
theorem OwnRow.ldImm (x : RegIdx) (nn : Byte) : OwnRow.Statement (.ldImm x nn) := formatXI_masked _ _ _
theorem OwnRow.addImm (x : RegIdx) (nn : Byte) : OwnRow.Statement (.addImm x nn) := formatXI_masked _ _ _
theorem OwnRow.ldReg (x y : RegIdx) : OwnRow.Statement (.ldReg x y) := formatXY_masked _ _ _ _
theorem OwnRow.or (x y : RegIdx) : OwnRow.Statement (.or x y) := formatXY_masked _ _ _ _
theorem OwnRow.and (x y : RegIdx) : OwnRow.Statement (.and x y) := formatXY_masked _ _ _ _
theorem OwnRow.xor (x y : RegIdx) : OwnRow.Statement (.xor x y) := formatXY_masked _ _ _ _
theorem OwnRow.addReg (x y : RegIdx) : OwnRow.Statement (.addReg x y) := formatXY_masked _ _ _ _
theorem OwnRow.sub (x y : RegIdx) : OwnRow.Statement (.sub x y) := formatXY_masked _ _ _ _
theorem OwnRow.shr (x y : RegIdx) : OwnRow.Statement (.shr x y) := formatXY_masked _ _ _ _
theorem OwnRow.subn (x y : RegIdx) : OwnRow.Statement (.subn x y) := formatXY_masked _ _ _ _
theorem OwnRow.shl (x y : RegIdx) : OwnRow.Statement (.shl x y) := formatXY_masked _ _ _ _
theorem OwnRow.sneReg (x y : RegIdx) : OwnRow.Statement (.sneReg x y) := formatXY_masked _ _ _ _
theorem OwnRow.ldI (nnn : Addr) : OwnRow.Statement (.ldI nnn) := formatA_masked _ _
theorem OwnRow.jpV0 (nnn : Addr) : OwnRow.Statement (.jpV0 nnn) := formatA_masked _ _
theorem OwnRow.drw (x y : RegIdx) (n : Nat) : OwnRow.Statement (.drw x y n) := formatXYN_masked _ _ _ _
theorem OwnRow.ldDt (x : RegIdx) : OwnRow.Statement (.ldDt x) := formatXS_masked _ _
theorem OwnRow.ldBcd (x : RegIdx) : OwnRow.Statement (.ldBcd x) := formatXS_masked _ _
theorem OwnRow.stRegs (x : RegIdx) : OwnRow.Statement (.stRegs x) := formatXS_masked _ _
theorem OwnRow.ldRegs (x : RegIdx) : OwnRow.Statement (.ldRegs x) := formatXS_masked _ _

end Sys2Proof.Laws
end

