-- ==== Sys2Proof/Laws/Screen.lean ====
section
/-!
SUPPORT. The laws of the framebuffer engine: a pixel read after a pixel write, after clear and after toggle.
-/

namespace Sys2Proof.Machine

/-- The same pixel: coordinates modulo width and height (rule R130). -/
theorem Screen.pixel_setPixel (fb : Screen) (x y x' y' : Nat) (b : Bool) :
    (fb.setPixel x y b).pixel x' y' = if x' % 64 = x % 64 ∧ y' % 32 = y % 32 then b else fb.pixel x' y' := by
  unfold Screen.setPixel Screen.pixel
  rw [Vector.getElem_set]
  by_cases hy : y % 32 = y' % 32
  · rw [if_pos hy]
    simp only [hy, Vector.getElem_set, eq_comm (a := x % 64), and_true]
  · rw [if_neg hy, if_neg (fun h => hy h.2.symm)]

@[simp] theorem Screen.pixel_clear (x y : Nat) : Screen.clear.pixel x y = false := by
  simp [Screen.clear, Screen.pixel]

@[simp] theorem Screen.toggle_snd (fb : Screen) (x y : Nat) (bit : Bool) :
    (fb.toggle x y bit).2 = fb.pixel x y := rfl

theorem Screen.pixel_toggle (fb : Screen) (x y x' y' : Nat) (bit : Bool) :
    (fb.toggle x y bit).1.pixel x' y' =
      if x' % 64 = x % 64 ∧ y' % 32 = y % 32 then fb.pixel x y ^^ bit else fb.pixel x' y' :=
  Screen.pixel_setPixel fb x y x' y' _

/-- Pixels are addressed modulo width and height. -/
theorem Screen.pixel_mod (fb : Screen) (x y : Nat) : fb.pixel (x % 64) (y % 32) = fb.pixel x y := by
  simp [Screen.pixel]

/-- Framebuffers with the same pixels are equal. -/
theorem Screen.ext_pixel {fb fb' : Screen} (h : ∀ x y, x < 64 → y < 32 → fb.pixel x y = fb'.pixel x y) :
    fb = fb' := by
  apply Vector.ext
  intro y hy
  apply Vector.ext
  intro x hx
  have := h x y hx hy
  simpa [Screen.pixel, Nat.mod_eq_of_lt hx, Nat.mod_eq_of_lt hy] using this

/-- Some columns of a sprite row: each column's pixel is XORed with its bit, every other pixel stays. -/
theorem drawCols_pixel (vx vy : Nat) (b : Byte) (cs : List Nat) (hn : cs.Nodup) (hc : ∀ c ∈ cs, c < 8)
    (fb : Screen) (x y : Nat) :
    (drawCols vx vy b cs fb).1.pixel x y = (fb.pixel x y ^^
      cs.any (fun c => decide (x % 64 = (vx + c) % 64 ∧ y % 32 = vy % 32) && spriteBit b c)) := by
  induction cs generalizing fb with
  | nil => simp [drawCols]
  | cons c cs ih =>
    obtain ⟨hcc, hn⟩ := List.nodup_cons.mp hn
    have hc8 := hc c (by simp)
    simp only [drawCols, ih hn (fun d hd => hc d (by simp [hd])), Screen.pixel_toggle, List.any_cons]
    by_cases h : x % 64 = (vx + c) % 64 ∧ y % 32 = vy % 32
    · have hrest : cs.any (fun d => decide (x % 64 = (vx + d) % 64 ∧ y % 32 = vy % 32) && spriteBit b d)
          = false := by
        rw [List.any_eq_false]
        intro d hd
        have hd8 := hc d (by simp [hd])
        have hne : d ≠ c := fun e => hcc (e ▸ hd)
        have : ¬x % 64 = (vx + d) % 64 := by omega
        simp [this]
      have hp : fb.pixel (vx + c) vy = fb.pixel x y := by
        rw [← Screen.pixel_mod, ← h.1, ← h.2, Screen.pixel_mod]
      rw [hrest, hp]
      simp [h]
    · simp [h]

/-- Some columns of a sprite row collide exactly if one of them meets an on pixel with a set bit. -/
theorem drawCols_hit (vx vy : Nat) (b : Byte) (cs : List Nat) (hn : cs.Nodup) (hc : ∀ c ∈ cs, c < 8)
    (fb : Screen) :
    (drawCols vx vy b cs fb).2 = cs.any (fun c => fb.pixel (vx + c) vy && spriteBit b c) := by
  induction cs generalizing fb with
  | nil => simp [drawCols]
  | cons c cs ih =>
    obtain ⟨hcc, hn⟩ := List.nodup_cons.mp hn
    have hc8 := hc c (by simp)
    have hp : ∀ d ∈ cs, (fb.toggle (vx + c) vy (spriteBit b c)).1.pixel (vx + d) vy = fb.pixel (vx + d) vy := by
      intro d hd
      have hd8 := hc d (by simp [hd])
      have hne : d ≠ c := fun e => hcc (e ▸ hd)
      rw [Screen.pixel_toggle, if_neg (by omega)]
    simp only [drawCols, ih hn (fun d hd => hc d (by simp [hd])), Screen.toggle_snd, List.any_cons]
    congr 1
    rw [Bool.eq_iff_iff, List.any_eq_true, List.any_eq_true]
    exact exists_congr fun d => and_congr_right fun hd => by rw [hp d hd]

end Sys2Proof.Machine
end

