-- ==== Sys2Proof/Laws/Step.lean ====
section
/-!
SUPPORT. Everything a Step and the instructions that can fault can do, once. The instructions that cannot fault
are `.next` of their update by definition.
-/

namespace Sys2Proof.Machine

open Sys2Proof.Safety

/-! ### The Step (rule R79) -/

theorem step_of_decode {s : State} {w : Word} {i : Instr} (hf : fetch s = .ok w) (hd : decode w = .ok i) :
    step s = exec i s.beginStep := by
  simp only [step, hf, hd]

theorem nextInstr_eq_some {s : State} {i : Instr} :
    nextInstr s = some i ↔ ∃ w, fetch s = .ok w ∧ decode w = .ok i := by
  unfold nextInstr
  cases hf : fetch s with
  | error f => simp
  | ok w => cases hd : decode w <;> simp [hd]

theorem step_of_nextInstr {s : State} {i : Instr} (h : nextInstr s = some i) : step s = exec i s.beginStep := by
  obtain ⟨w, hf, hd⟩ := nextInstr_eq_some.mp h
  exact step_of_decode hf hd

/-- A Step that commits ran the instruction its fetch and decode gave. -/
theorem step_next {s t : State} :
    step s = .next t ↔ ∃ i, nextInstr s = some i ∧ exec i s.beginStep = .next t := by
  unfold step nextInstr
  cases hf : fetch s with
  | error f => simp [raise]
  | ok w => cases hd : decode w <;> simp [raise, hd]

/-- A Step that faults did so in its fetch, in its decode or in its instruction. -/
theorem step_fault {s : State} {f : Fault} :
    step s = .fault f ↔ fetch s = .error f ∨
      (∃ w, fetch s = .ok w ∧ (∀ i, decode w ≠ .ok i) ∧ f = .unimplementedOpcode w) ∨
      ∃ i, nextInstr s = some i ∧ exec i s.beginStep = .fault f := by
  unfold step nextInstr
  cases hf : fetch s with
  | error g => simp [raise]
  | ok w =>
    cases hd : decode w with
    | ok i => simp [hd]
    | error e =>
      obtain ⟨rfl, -⟩ := Sys2Proof.Laws.decode_error hd
      simp [raise, decodeFault, hd, eq_comm]

/-- pc of a Step that reaches its instruction is inside the fetch window. -/
theorem pc_of_nextInstr {s : State} {i : Instr} (h : nextInstr s = some i) :
    0x200 ≤ s.pc.toNat ∧ s.pc.toNat ≤ 0xFFE := by
  obtain ⟨w, hf, -⟩ := nextInstr_eq_some.mp h
  exact (fetch_ok.mp hf).1

/-- One Step of a run, for any machine and so for this one. -/
theorem run_succ_of_next {M : Host.Core} {k : Nat} {s t : M.State} (h : M.step s = .next t) :
    M.run (k + 1) s = M.run k t := by
  simp only [Host.Core.run, h]

theorem core_run_succ {k : Nat} {s t : State} (h : step s = .next t) :
    Sys2Proof.core.run (k + 1) s = Sys2Proof.core.run k t :=
  run_succ_of_next (M := Sys2Proof.core) h

/-- What a Step runs and fetches depends on pc and memory only. -/
theorem nextInstr_congr {s u : State} (hpc : u.pc = s.pc) (hm : u.mem = s.mem) : nextInstr u = nextInstr s := by
  simp only [nextInstr, fetch, hpc, hm]

/-! ### The instructions that can fault -/

theorem execRet_next {s t : State} :
    execRet s = .next t ↔ ∃ _h : s.sp.val ≠ 0,
      t = State.jump { s with sp := ⟨s.sp.val - 1, by omega⟩ } (s.stack[s.sp.val - 1]'(by omega)) := by
  unfold execRet
  split
  · next target s' h =>
    obtain ⟨h0, rfl, rfl⟩ := State.pop_ok.mp h
    simp [h0, eq_comm]
  · next f h =>
    obtain ⟨h0, rfl⟩ := State.pop_error.mp h
    simp [raise, h0]

theorem execRet_fault {s : State} {f : Fault} :
    execRet s = .fault f ↔ s.sp.val = 0 ∧ f = .stackUnderflow := by
  rw [← State.pop_error]
  unfold execRet
  split <;> simp_all [raise]

theorem execCall_next {nnn : Addr} {s t : State} :
    execCall nnn s = .next t ↔ ∃ h : s.sp.val < 16,
      t = State.jump { s with
        stack := s.stack.set s.sp.val (s.pc + 2) h, sp := ⟨s.sp.val + 1, by omega⟩ } (absolute nnn) := by
  unfold execCall
  split
  · next s' h =>
    obtain ⟨h0, rfl⟩ := State.push_ok.mp h
    simp [h0, eq_comm]
  · next f h =>
    obtain ⟨h0, rfl⟩ := State.push_error.mp h
    constructor
    · intro e; cases e
    · rintro ⟨h1, -⟩; omega

theorem execCall_fault {nnn : Addr} {s : State} {f : Fault} :
    execCall nnn s = .fault f ↔ s.sp.val = 16 ∧ f = .stackOverflow := by
  rw [← State.push_error (a := s.pc + 2)]
  unfold execCall
  split <;> simp_all [raise]

theorem execLdBcd_next {x : RegIdx} {s t : State} :
    execLdBcd x s = .next t ↔ s.base + 3 ≤ 0x1000 ∧
      t = State.advance { s with mem := s.mem.putBytes s.base (bcdDigits (s.v x)) } := by
  unfold execLdBcd
  split
  · next m h =>
    obtain ⟨h0, rfl⟩ := storeBytes_ok.mp h
    simp at h0
    simp [h0, eq_comm]
  · next f h =>
    obtain ⟨h0, rfl⟩ := storeBytes_error.mp h
    simp [raise] at h0 ⊢
    omega

theorem execStRegs_next {x : RegIdx} {s t : State} :
    execStRegs x s = .next t ↔ s.base + (x.val + 1) ≤ 0x1000 ∧
      t = State.advance { s with mem := s.mem.putBytes s.base (s.block x) } := by
  unfold execStRegs
  split
  · next m h =>
    obtain ⟨h0, rfl⟩ := storeBytes_ok.mp h
    simp at h0
    simp [h0, eq_comm]
  · next f h =>
    obtain ⟨h0, rfl⟩ := storeBytes_error.mp h
    simp [raise] at h0 ⊢
    omega

theorem execLdRegs_next {x : RegIdx} {s t : State} :
    execLdRegs x s = .next t ↔ s.base + (x.val + 1) ≤ 0x1000 ∧
      t = (s.setRegs (s.mem.getBytes s.base (x.val + 1))).advance := by
  unfold execLdRegs
  split
  · next bs h =>
    obtain ⟨h0, rfl⟩ := loadBytes_ok.mp h
    simp at h0
    simp [h0, eq_comm]
  · next f h =>
    obtain ⟨h0, rfl⟩ := loadBytes_error.mp h
    simp [raise] at h0 ⊢
    omega

theorem execDrw_next {x y : RegIdx} {n : Nat} {s t : State} :
    execDrw x y n s = .next t ↔ (n = 0 ∨ s.base + n ≤ 0x1000) ∧
      t = (State.setV { s with
        fb := (drawSprite (s.v x).toNat (s.v y).toNat (s.mem.getBytes s.base n) s.fb).1 } VF
        (flagByte (drawSprite (s.v x).toNat (s.v y).toNat (s.mem.getBytes s.base n) s.fb).2)).advance := by
  unfold execDrw
  split
  · next bs h =>
    obtain ⟨h0, rfl⟩ := loadBytes_ok.mp h
    simp [h0, eq_comm]
  · next f h =>
    obtain ⟨h0, rfl⟩ := loadBytes_error.mp h
    simp [raise] at h0 ⊢
    omega

/-- The four data instructions fault exactly when their range check does, with its fault. -/
theorem execLdBcd_fault {x : RegIdx} {s : State} {f : Fault} :
    execLdBcd x s = .fault f ↔ rangeFault s.base 3 = some f := by
  unfold execLdBcd storeBytes
  split <;> rename_i h <;> split at h <;> simp_all [raise]

theorem execStRegs_fault {x : RegIdx} {s : State} {f : Fault} :
    execStRegs x s = .fault f ↔ rangeFault s.base (x.val + 1) = some f := by
  unfold execStRegs storeBytes
  split <;> rename_i h <;> split at h <;> simp_all [raise]

theorem execLdRegs_fault {x : RegIdx} {s : State} {f : Fault} :
    execLdRegs x s = .fault f ↔ rangeFault s.base (x.val + 1) = some f := by
  unfold execLdRegs loadBytes
  split <;> rename_i h <;> split at h <;> simp_all [raise]

theorem execDrw_fault {x y : RegIdx} {n : Nat} {s : State} {f : Fault} :
    execDrw x y n s = .fault f ↔ rangeFault s.base n = some f := by
  unfold execDrw loadBytes
  split <;> rename_i h <;> split at h <;> simp_all [raise]

end Sys2Proof.Machine
end

