-- ==== Sys2Proof/Tests/Slice0.lean ====
section
/-!
SUPPORT. The model's own tests. The expected results come from the spec: the encodings of 30_encoding.md rule R56
and the worked examples and vectors of 95_test_vectors.md (their names stand before the tests). After them one
witness for every statement that has hypotheses.
-/

namespace Sys2Proof.Tests

open Sys2Proof.Machine Sys2Proof.Safety

/-! ### Well-formedness -/

/-- The only check: a sprite height is 0 to 15 (rule R53). -/
theorem test_wellFormed_height : Instr.wellFormed (.drw 0 0 15) = true ∧ Instr.wellFormed (.drw 0 0 0) = true ∧
    Instr.wellFormed (.drw 0 0 16) = false := by decide

/-! ### Decoding: a word a constructor, written from the pattern of rule R56 -/

theorem test_decode_cls : decode 0x00E0 = .ok .cls := by rfl
theorem test_decode_ret : decode 0x00EE = .ok .ret := by rfl
theorem test_decode_jp : decode 0x1234 = .ok (.jp 0x234) := by rfl
theorem test_decode_call : decode 0x2FED = .ok (.call 0xFED) := by rfl
theorem test_decode_seImm : decode 0x3A5C = .ok (.seImm 10 0x5C) := by rfl
theorem test_decode_sneImm : decode 0x41FF = .ok (.sneImm 1 0xFF) := by rfl
theorem test_decode_seReg : decode 0x5120 = .ok (.seReg 1 2) := by rfl
theorem test_decode_ldImm : decode 0x6F07 = .ok (.ldImm 15 0x07) := by rfl
theorem test_decode_addImm : decode 0x7201 = .ok (.addImm 2 0x01) := by rfl
theorem test_decode_ldReg : decode 0x8AF0 = .ok (.ldReg 10 15) := by rfl
theorem test_decode_or : decode 0x8121 = .ok (.or 1 2) := by rfl
theorem test_decode_and : decode 0x8122 = .ok (.and 1 2) := by rfl
theorem test_decode_xor : decode 0x8123 = .ok (.xor 1 2) := by rfl
theorem test_decode_addReg : decode 0x8104 = .ok (.addReg 1 0) := by rfl
theorem test_decode_sub : decode 0x8015 = .ok (.sub 0 1) := by rfl
theorem test_decode_shr : decode 0x8126 = .ok (.shr 1 2) := by rfl
theorem test_decode_subn : decode 0x8127 = .ok (.subn 1 2) := by rfl
theorem test_decode_shl : decode 0x8F0E = .ok (.shl 15 0) := by rfl
theorem test_decode_sneReg : decode 0x9120 = .ok (.sneReg 1 2) := by rfl
theorem test_decode_ldI : decode 0xA20C = .ok (.ldI 0x20C) := by rfl
theorem test_decode_jpV0 : decode 0xB300 = .ok (.jpV0 0x300) := by rfl
theorem test_decode_drw : decode 0xD41F = .ok (.drw 4 1 15) := by rfl
theorem test_decode_ldDt : decode 0xF015 = .ok (.ldDt 0) := by rfl
theorem test_decode_ldBcd : decode 0xFA33 = .ok (.ldBcd 10) := by rfl
theorem test_decode_stRegs : decode 0xF255 = .ok (.stRegs 2) := by rfl
theorem test_decode_ldRegs : decode 0xFF65 = .ok (.ldRegs 15) := by rfl

/-- Words of instructions this hardware does not have (rule R58; vectors V-S10, V-A34, V-M18 to V-M20, V-X16). -/
theorem test_decode_illegal : [0x5121, 0x912F, 0x8128, 0xF007, 0xF01E, 0xF029, 0x0FFF, 0xC123, 0xE19E].all
    (fun w => match decode w with | .error e => e == .unimplementedOpcode w | .ok _ => false) = true := by decide

/-- The bytes are in memory order, the high one first (example E9). -/
theorem test_decodeBytes_order : decodeBytes [0x12, 0x34, 0xAA] = .ok (.jp 0x234, [0xAA]) := by rfl

theorem test_decodeTableWord : decodeTableWord 16 0x1234 = some (.jp 0x234) ∧
    decodeTableWord 16 0x0000 = none := by decide

/-! ### States and outcomes -/

/-- The reset state with pc, I, some registers and some bytes of memory set. -/
def start (pc i : Word) (vs : List (RegIdx × Byte)) (a : Nat) (bytes : List Byte) : State :=
  vs.foldl (fun s p => s.setV p.1 p.2) { State.reset with pc := pc, i := i, mem := State.reset.mem.putBytes a bytes }

/-- One Step on a word placed at pc. -/
def stepOn (s : State) (w : Nat) : Result := step (s.withFetchWord 16 w)

/-- The outcome is a next state with the property. -/
def nextIs (r : Result) (p : State → Bool) : Bool :=
  match r with
  | .next t => p t
  | .fault _ => false
  | .refused _ => false

/-- The outcome is this fault. -/
def faultIs (r : Result) (f : Fault) : Bool :=
  match r with
  | .next _ => false
  | .fault g => decide (g = f)
  | .refused _ => false

/-- A framebuffer with exactly these pixels on. -/
def screenOf (ps : List (Nat × Nat)) : Screen := ps.foldl (fun fb p => fb.setPixel p.1 p.2 true) Screen.clear

/-- A stack of n equal entries. -/
def withStack (s : State) (n : Fin 17) (a : Word) : State :=
  { s with sp := n, stack := Vector.ofFn (fun k => if k.val < n.val then a else 0) }

/-! ### Reset and the first instruction -/

theorem test_reset_inv : Inv State.reset := by decide

/-- Rule R184: without a program the first Step faults on the word 0x0000. -/
theorem test_reset_step : faultIs (step State.reset) (.unimplementedOpcode 0x0000) = true := by decide

/-- A placed word runs as the first instruction after reset (vector V-A1). -/
theorem test_withFetchWord : nextIs (step (State.reset.withFetchWord 16 0x60FE))
    (fun t => t.v 0 == 0xFE && t.pc == 0x0202) = true := by decide

/-! ### Control flow (vectors V-F) -/

/-- V-F1. -/
theorem test_ret : nextIs (stepOn (withStack (start 0x020C 0 [] 0 []) 1 0x0206) 0x00EE)
    (fun t => t.pc == 0x0206 && t.sp == 0) = true := by decide
/-- V-F2. -/
theorem test_ret_underflow : faultIs (stepOn State.reset 0x00EE) .stackUnderflow = true := by decide
/-- V-F4. -/
theorem test_jp : nextIs (stepOn (start 0x020A 0 [] 0 []) 0x1204) (fun t => t.pc == 0x0204) = true := by decide
/-- V-F12: the return address of a CALL at 0xFFE is 0x1000. -/
theorem test_call : nextIs (stepOn (start 0x0FFE 0 [] 0 []) 0x2200)
    (fun t => t.pc == 0x0200 && t.sp == 1 && t.stack.get 0 == 0x1000) = true := by decide
/-- V-F11. -/
theorem test_call_overflow : faultIs (stepOn (withStack State.reset 16 0x0202) 0x2300) .stackOverflow = true := by
  decide
/-- V-F14: no wrap at 0xFFF. -/
theorem test_jpV0 : nextIs (stepOn (start 0x0200 0 [(0, 0xFF)] 0 []) 0xBFFF) (fun t => t.pc == 0x10FE) = true := by
  decide
/-- V-F15: V0, never Vx. -/
theorem test_jpV0_register : nextIs (stepOn (start 0x0200 0 [(0, 0x02), (3, 0x80)] 0 []) 0xB300)
    (fun t => t.pc == 0x0302) = true := by decide

/-! ### Skips (vectors V-S) -/

/-- V-S12: a taken skip at 0xFFE does not wrap. -/
theorem test_seImm_taken : nextIs (stepOn (start 0x0FFE 0 [] 0 []) 0x3000) (fun t => t.pc == 0x1002) = true := by
  decide
/-- V-S2. -/
theorem test_seImm_not_taken : nextIs (stepOn (start 0x0208 0 [(0, 0x04)] 0 []) 0x3000)
    (fun t => t.pc == 0x020A) = true := by decide
/-- V-S3. -/
theorem test_sneImm_taken : nextIs (stepOn State.reset 0x41FF) (fun t => t.pc == 0x0204) = true := by decide
/-- V-S4. -/
theorem test_sneImm_not_taken : nextIs (stepOn (start 0x0200 0 [(1, 0xFF)] 0 []) 0x41FF)
    (fun t => t.pc == 0x0202) = true := by decide
/-- V-S5. -/
theorem test_seReg_taken : nextIs (stepOn (start 0x0300 0 [(1, 0x7F), (2, 0x7F)] 0 []) 0x5120)
    (fun t => t.pc == 0x0304) = true := by decide
/-- V-S6. -/
theorem test_seReg_not_taken : nextIs (stepOn (start 0x0300 0 [(1, 0x7F), (2, 0x80)] 0 []) 0x5120)
    (fun t => t.pc == 0x0302) = true := by decide
/-- V-S8. -/
theorem test_sneReg_taken : nextIs (stepOn (start 0x0300 0 [(1, 0x01), (2, 0x02)] 0 []) 0x9120)
    (fun t => t.pc == 0x0304) = true := by decide
/-- V-S9. -/
theorem test_sneReg_not_taken : nextIs (stepOn (start 0x0300 0 [(1, 0x01), (2, 0x01)] 0 []) 0x9120)
    (fun t => t.pc == 0x0302) = true := by decide

/-! ### Registers and ALU (vectors V-A) -/

/-- V-A2. -/
theorem test_ldImm : nextIs (stepOn State.reset 0x6F07) (fun t => t.v VF == 0x07) = true := by decide
/-- V-A3: wraps and leaves VF alone. -/
theorem test_addImm : nextIs (stepOn (start 0x0200 0 [(0, 0x05), (15, 0x09)] 0 []) 0x70FF)
    (fun t => t.v 0 == 0x04 && t.v VF == 0x09) = true := by decide
/-- V-A5. -/
theorem test_ldReg : nextIs (stepOn (start 0x0200 0 [(2, 0x3C)] 0 []) 0x8120) (fun t => t.v 1 == 0x3C) = true := by
  decide
/-- V-A6. -/
theorem test_or : nextIs (stepOn (start 0x0200 0 [(1, 0xF0), (2, 0x3C), (15, 0x05)] 0 []) 0x8121)
    (fun t => t.v 1 == 0xFC && t.v VF == 0x05) = true := by decide
/-- V-A7. -/
theorem test_and : nextIs (stepOn (start 0x0200 0 [(1, 0xF0), (2, 0x3C)] 0 []) 0x8122)
    (fun t => t.v 1 == 0x30) = true := by decide
/-- V-A8. -/
theorem test_xor : nextIs (stepOn (start 0x0200 0 [(1, 0xF0), (2, 0x3C)] 0 []) 0x8123)
    (fun t => t.v 1 == 0xCC) = true := by decide
/-- V-A14. -/
theorem test_addReg : nextIs (stepOn (start 0x0200 0 [(1, 0xFF), (2, 0x01)] 0 []) 0x8124)
    (fun t => t.v 1 == 0x00 && t.v VF == 1) = true := by decide
/-- V-A15: the flag replaces the sum. -/
theorem test_addReg_into_vf : nextIs (stepOn (start 0x0200 0 [(15, 0xF0), (1, 0x20)] 0 []) 0x8F14)
    (fun t => t.v VF == 1) = true := by decide
/-- V-A18: 8xy5 adds. -/
theorem test_sub : nextIs (stepOn (start 0x0200 0 [(1, 0x05), (2, 0x03)] 0 []) 0x8125)
    (fun t => t.v 1 == 0x08 && t.v VF == 0) = true := by decide
/-- V-A22: the flag is the low nibble. -/
theorem test_shr : nextIs (stepOn (start 0x0200 0 [(1, 0x1F)] 0 []) 0x8106)
    (fun t => t.v 1 == 0x0F && t.v VF == 0x0F) = true := by decide
/-- V-A24: Vy is never read. -/
theorem test_shr_ignores_y : nextIs (stepOn (start 0x0200 0 [(1, 0x03), (2, 0xFF)] 0 []) 0x8126)
    (fun t => t.v 1 == 0x01 && t.v VF == 0x03) = true := by decide
/-- V-A29: 8xy7 adds. -/
theorem test_subn : nextIs (stepOn (start 0x0200 0 [(1, 0x90), (2, 0x90)] 0 []) 0x8127)
    (fun t => t.v 1 == 0x20 && t.v VF == 1) = true := by decide
/-- V-A30. -/
theorem test_shl : nextIs (stepOn (start 0x0200 0 [(1, 0x81)] 0 []) 0x810E)
    (fun t => t.v 1 == 0x02 && t.v VF == 1) = true := by decide

/-! ### Index, timer and memory (vectors V-M) -/

/-- V-M2. -/
theorem test_ldI : nextIs (stepOn State.reset 0xAFFF) (fun t => t.i == 0x0FFF) = true := by decide
/-- V-M3: exactly Vx, not one less. -/
theorem test_ldDt : nextIs (stepOn { start 0x0200 0 [(0, 0x03)] 0 [] with dt := 9 } 0xF015)
    (fun t => t.dt == 3) = true := by decide
/-- V-M4. -/
theorem test_ldBcd : nextIs (stepOn (start 0x0200 0x0300 [(0, 0xFE)] 0 []) 0xF033)
    (fun t => t.mem.getBytes 0x300 3 == [0x02, 0x05, 0x04]) = true := by decide
/-- V-M10. -/
theorem test_ldBcd_past_end : faultIs (stepOn (start 0x0200 0x0FFE [(0, 0x7B)] 0 []) 0xF033)
    (.dataAddressOutOfRange 0x1000) = true := by decide
/-- V-M12. -/
theorem test_stRegs : nextIs (stepOn (start 0x0200 0x0400 [(0, 0x11), (1, 0x22), (2, 0x33)] 0 []) 0xF255)
    (fun t => t.mem.getBytes 0x400 4 == [0x11, 0x22, 0x33, 0x00] && t.i == 0x0400) = true := by decide
/-- V-M14. -/
theorem test_stRegs_past_end : faultIs (stepOn (start 0x0200 0x0FFE [(0, 0xAA)] 0 []) 0xF255)
    (.dataAddressOutOfRange 0x1000) = true := by decide
/-- V-M15. -/
theorem test_ldRegs : nextIs (stepOn (start 0x0200 0x0300 [(3, 0x77)] 0x300 [0x02, 0x05, 0x04, 0x09]) 0xF265)
    (fun t => t.v 0 == 0x02 && t.v 2 == 0x04 && t.v 3 == 0x77) = true := by decide
/-- V-M16: glyph 1 of the default FONT. -/
theorem test_ldRegs_font : nextIs (stepOn (start 0x0200 0x0005 [] 0 []) 0xF465)
    (fun t => t.v 0 == 0x20 && t.v 1 == 0x60 && t.v 4 == 0x70) = true := by decide

/-! ### Display (vectors V-D) -/

/-- V-D15. -/
theorem test_cls : nextIs (stepOn { State.reset with fb := screenOf [(0, 0), (63, 31)] } 0x00E0)
    (fun t => decide (t.fb = Screen.clear)) = true := by decide
/-- V-D4: two rows, wrapping right and bottom. -/
theorem test_drw_wraps : nextIs (stepOn (start 0x0200 0x0300 [(0, 0x3E), (1, 0x1F)] 0x300 [0xC0, 0x81]) 0xD012)
    (fun t => decide (t.fb = screenOf [(5, 0), (62, 0), (62, 31), (63, 31)]) && t.v VF == 0) = true := by decide
/-- V-D6: an on pixel under a 1 collides, one under a 0 stays. -/
theorem test_drw_collides :
    nextIs (stepOn { start 0x0200 0x0300 [] 0x300 [0xA0] with fb := screenOf [(0, 0), (1, 0)] } 0xD011)
      (fun t => decide (t.fb = screenOf [(1, 0), (2, 0)]) && t.v VF == 1) = true := by decide
/-- V-D2: snapshot element 2047 is the last pixel. -/
theorem test_snapshot : (screenOf [(63, 31)]).snapshot[2047]? = some true ∧
    (screenOf [(63, 31)]).snapshot[2046]? = some false := by decide +kernel

/-! ### The Step and the host (vectors V-F7, V-T, V-L) -/

/-- V-F7. -/
theorem test_fetch_below : faultIs (step (start 0x0100 0 [] 0 [])) (.fetchOutOfRange 0x0100) = true := by decide
/-- V-T1. -/
theorem test_timer : nextIs (stepOn { State.reset with dt := 5 } 0x1200) (fun t => t.dt == 4) = true := by decide
/-- V-L2 and V-L7. -/
theorem test_load : (hostOp (.load [0x12, 0x00]) State.reset).2 = .dropped 0 ∧
    (hostOp (.load [0x12, 0x00]) State.reset).1.mem.byte 0x200 = 0x12 ∧
    (hostOp (.load [0x11]) { State.reset with stepped := true }).2 = .refused .loadAfterStep := by decide

/-! ### Witnesses: every statement with hypotheses has a state and operands that meet all of them -/

/-- A word at 0x200, all else as reset. -/
def at200 (w : Nat) : State := State.reset.withFetchWord 16 w

theorem test_witness_DecodeEncodeRoundTrip :
    Instr.wellFormed (.drw 15 0 15) = true ∧ Instr.wellFormed .cls = true := by decide

theorem test_witness_DecodedWordEncodesBack :
    decode 0x00E0 = .ok .cls ∧ decode 0xFF65 = .ok (.ldRegs 15) := ⟨rfl, rfl⟩

/-- Words at the ends of each clause of rule R58, and the legal words next to them. -/
theorem test_witness_IllegalWordsFault :
    (∀ w : Word, w ∈ [0x0000, 0x00DF, 0x00EF, 0x0FFF, 0x5001, 0x9FFF, 0x8008, 0x800D, 0x800F, 0xC000, 0xCFFF,
      0xE000, 0xEFFF, 0xF014, 0xF016, 0xFF66] → IllegalWord w) ∧
    (∀ w : Word, w ∈ [0x00E0, 0x00EE, 0x1000, 0x5000, 0x9FF0, 0x8007, 0x800E, 0xBFFF, 0xD000, 0xF015, 0xF033,
      0xF055, 0xF065] → ¬IllegalWord w) ∧
    fetch (at200 0xCFFF) = .ok 0xCFFF := by
  refine ⟨?_, ?_, rfl⟩ <;> simp [IllegalWord]

/-- At both ends of the fetch window. -/
theorem test_witness_StepRunsTheDecodedInstruction :
    (∃ s : State, s.pc.toNat = 0x0200 ∧
      decode (s.mem.byte s.pc.toNat ++ s.mem.byte (s.pc.toNat + 1)) = .ok (.jp 0x200)) ∧
    (∃ s : State, s.pc.toNat = 0x0FFE ∧
      decode (s.mem.byte s.pc.toNat ++ s.mem.byte (s.pc.toNat + 1)) = .ok .cls) :=
  ⟨⟨at200 0x1200, rfl, rfl⟩, ⟨(start 0x0FFE 0 [] 0 []).withFetchWord 16 0x00E0, rfl, rfl⟩⟩

theorem test_witness_FetchIsBigEndianInsideTheWindow :
    (start 0x0200 0 [] 0 []).pc.toNat = 0x0200 ∧ (start 0x0FFE 0 [] 0 []).pc.toNat = 0x0FFE ∧
    (start 0x01FF 0 [] 0 []).pc.toNat < 0x0200 ∧ 0x0FFE < (start 0x0FFF 0 [] 0 []).pc.toNat := by decide

/-- Each of the five faults happens, the data fault for each kind of access. -/
theorem test_witness_StepFaultsExactlyWhen :
    step (start 0x01FF 0 [] 0 []) = .fault (.fetchOutOfRange 0x01FF) ∧
    step (start 0x0FFF 0 [] 0 []) = .fault (.fetchOutOfRange 0x0FFF) ∧
    step (at200 0x0000) = .fault (.unimplementedOpcode 0x0000) ∧
    step (withStack (at200 0x2200) 16 0x0202) = .fault .stackOverflow ∧
    step (at200 0x00EE) = .fault .stackUnderflow ∧
    step ((start 0x0200 0x0FFF [] 0 []).withFetchWord 16 0xD012) = .fault (.dataAddressOutOfRange 0x1000) ∧
    step ((start 0x0200 0x0FFE [] 0 []).withFetchWord 16 0xF033) = .fault (.dataAddressOutOfRange 0x1000) ∧
    step ((start 0x0200 0x0FFF [] 0 []).withFetchWord 16 0xF155) = .fault (.dataAddressOutOfRange 0x1000) ∧
    step ((start 0x0200 0xFFFF [] 0 []).withFetchWord 16 0xF065) = .fault (.dataAddressOutOfRange 0xFFFF) :=
  ⟨rfl, rfl, rfl, rfl, rfl, rfl, rfl, rfl, rfl⟩

theorem test_witness_FaultingStepChangesNothingAndRepeats :
    step { at200 0x00EE with dt := 5 } = .fault .stackUnderflow := rfl

/-- A Step that runs Fx15, one that does not, and one with DT at 0. -/
theorem test_witness_TimerAfterEveryStep :
    (∃ t, step (at200 0xF315) = .next t ∧ nextInstr (at200 0xF315) = some (.ldDt 3)) ∧
    (∃ t, step { at200 0x1200 with dt := 1 } = .next t) ∧ (∃ t, step (at200 0x1200) = .next t) ∧
    (∀ x, nextInstr (at200 0x1200) ≠ some (.ldDt x)) := by
  have h : nextInstr (at200 0x1200) = some (.jp 0x200) := rfl
  exact ⟨⟨_, rfl, rfl⟩, ⟨_, rfl⟩, ⟨_, rfl⟩, fun x => by simp [h]⟩

theorem test_witness_SelfJumpOnlyCountsTheTimerDown : AtSelfJump { at200 0x1200 with dt := 255 } :=
  ⟨0x200, rfl, rfl⟩

theorem test_witness_StepKeepsTheInvariant :
    Inv (withStack { at200 0x2FFF with i := 0x0FFF } 15 0x1000) ∧
    ∃ t, step (withStack { at200 0x2FFF with i := 0x0FFF } 15 0x1000) = .next t := ⟨by decide, _, rfl⟩

theorem test_witness_ReachableStatesMeetTheInvariant :
    Reachable (hostOp .step (hostOp (.load [0x12, 0x00]) State.reset).1).1 := .host _ (.host _ .reset)

/-- An image that fits exactly and one that is a byte too long. -/
theorem test_witness_LoadCopiesTheImage : State.reset.stepped = false ∧
    3583 < (List.replicate 3584 (0x07 : Byte)).length ∧ 3583 < (List.replicate 3585 (0x07 : Byte)).length ∧
    ¬(0x200 ≤ 0x1FF ∧ 0x1FF < 0x200 + min 3585 3584) := by
  simp only [List.length_replicate]
  decide

theorem test_witness_LoadedProgramStartsWithItsFirstWord : Instr.wellFormed (.drw 0 1 15) = true := by decide

theorem test_witness_OnlyLdIWritesI :
    (∃ t, step (at200 0xAFFF) = .next t ∧ nextInstr (at200 0xAFFF) = some (.ldI 0xFFF)) ∧
    (∃ t, step (at200 0x1200) = .next t ∧ nextInstr (at200 0x1200) = some (.jp 0x200)) :=
  ⟨⟨_, rfl, rfl⟩, ⟨_, rfl, rfl⟩⟩

/-- A CALL into the last slot, a RET from the first, and neither. -/
theorem test_witness_OnlyCallAndRetMoveTheStack :
    (∃ t, step (withStack (at200 0x2300) 15 0x0202) = .next t ∧ t.sp = 16) ∧
    (∃ t, step (withStack (at200 0x00EE) 1 0x0202) = .next t ∧ t.sp = 0) ∧ (∃ t, step (at200 0x1200) = .next t) :=
  ⟨⟨_, rfl, rfl⟩, ⟨_, rfl, rfl⟩, ⟨_, rfl⟩⟩

theorem test_witness_OnlyClsAndDrwWriteTheScreen :
    nextIs (step { at200 0x00E0 with fb := screenOf [(7, 7)] })
      (fun t => decide (t.fb ≠ screenOf [(7, 7)])) = true ∧
    nextIs (stepOn (start 0x0200 0x0300 [] 0x300 [0x80]) 0xD011)
      (fun t => decide (t.fb ≠ State.reset.fb)) = true := by decide

theorem test_witness_OnlyStoresWriteMemory :
    nextIs (stepOn (start 0x0200 0x0FFD [(0, 0x7B)] 0 []) 0xF033) (fun t => t.mem.byte 0xFFF != 0) = true ∧
    nextIs (stepOn (start 0x0200 0x0FF0 [(15, 0x7B)] 0 []) 0xFF55) (fun t => t.mem.byte 0xFFF != 0) = true := by
  decide

/-- VF changes as a flag and as a destination. -/
theorem test_witness_OnlyFlagWritersAndDestinationsChangeVF :
    nextIs (stepOn (start 0x0200 0 [(1, 0xFF)] 0 []) 0x8114) (fun t => t.v VF != 0) = true ∧
    nextIs (stepOn (start 0x0200 0 [(1, 0xFF)] 0 []) 0x8F10) (fun t => t.v VF != 0) = true ∧
    nextIs (stepOn State.reset 0x6F01) (fun t => t.v VF != 0) = true ∧
    nextIs (stepOn (start 0x0200 0 [] 0 []) 0xFF65) (fun t => t.v VF != 0) = true := by decide

/-- Each of the four ways happens. -/
theorem test_witness_PcIsWrittenInOneOfFourWays :
    (∃ t, step (at200 0x6000) = .next t) ∧ (∃ t, step (at200 0x3000) = .next t ∧ t.pc = 0x204) ∧
    (∃ t, step (at200 0x2FFF) = .next t) ∧ (∃ t, step (at200 0xBFFF) = .next t) ∧
    (∃ t, step (withStack (at200 0x00EE) 16 0x0202) = .next t) :=
  ⟨⟨_, rfl⟩, ⟨_, rfl, rfl⟩, ⟨_, rfl⟩, ⟨_, rfl⟩, ⟨_, rfl⟩⟩

/-- Stacks that agree below sp = 1 and differ above it. -/
theorem test_witness_TimerPhaseAndDeadSlotsAreUnobservable :
    (∀ k : Fin 16, k.val < (withStack (at200 0x00EE) 1 0x0202).sp.val →
      (Vector.replicate 16 (0x0202 : Word)).get k = (withStack (at200 0x00EE) 1 0x0202).stack.get k) ∧
    (withStack (at200 0x00EE) 1 0x0202).stack ≠ Vector.replicate 16 0x0202 ∧
    (∃ t, step (withStack (at200 0x00EE) 1 0x0202) = .next t) := ⟨by decide, by decide, _, rfl⟩

theorem test_witness_RetPopsIntoPc :
    State.reset.sp.val = 0 ∧ (0 : Fin 16).val + 1 = (withStack State.reset 1 0x1000).sp.val ∧
    (withStack State.reset 1 0x1000).stack.get 0 = 0x1000 ∧
    (15 : Fin 16).val + 1 = (withStack State.reset 16 0x0202).sp.val := by decide

theorem test_witness_JpGoesToItsAddress :
    (0x1FF : Addr).toNat < 0x200 ∧ (0xFFF : Addr).toNat = 0xFFF := by decide

theorem test_witness_CallPushesTheReturnAddress :
    (withStack State.reset 16 0x0202).sp.val = 16 ∧ (0 : Fin 16).val = State.reset.sp.val ∧
    (15 : Fin 16).val = (withStack State.reset 15 0x0202).sp.val := by decide

theorem test_witness_JpV0AddsV0 :
    0x0FFE < (State.reset.v V0).toNat + (0xFFF : Addr).toNat ∧
    ¬0x0FFE < (State.reset.v V0).toNat + (0xFFE : Addr).toNat := by decide

/-- The CALL that fills the stack, and a state where registers, memory and pc have changed since. -/
theorem test_witness_RetComesBackBehindTheCall : ∃ t u : State,
    exec (.call 0x300) (withStack State.reset 15 0x0202) = .next t ∧ u.sp = t.sp ∧ u.stack = t.stack ∧
    u.pc ≠ t.pc := ⟨_, (State.setV { withStack State.reset 16 0x0202 with pc := 0x0400 } 3 7), rfl, rfl,
      by decide, by decide⟩

theorem test_witness_RegisterSkips :
    1 ≤ (1 : Word).toNat ∧ (1 : Word).toNat ≤ 15 ∧ 1 ≤ (15 : Word).toNat ∧ (15 : Word).toNat ≤ 15 := by decide

theorem test_witness_ThreeEncodingsOfOneAddition :
    ((.addReg 0 1 : Instr) = .addReg 0 1 ∨ (.addReg 0 1 : Instr) = .sub 0 1 ∨ (.addReg 0 1 : Instr) = .subn 0 1) ∧
    ((.sub 14 1 : Instr) = .addReg 14 1 ∨ (.sub 14 1 : Instr) = .sub 14 1 ∨ (.sub 14 1 : Instr) = .subn 14 1) ∧
    ((.subn 15 1 : Instr) = .addReg 15 1 ∨ (.subn 15 1 : Instr) = .sub 15 1 ∨
      (.subn 15 1 : Instr) = .subn 15 1) ∧ (0 : RegIdx) ≠ VF ∧ (14 : RegIdx) ≠ VF := by decide

theorem test_witness_ShiftsIgnoreYAndWriteTheFlagLast : (0 : RegIdx) ≠ VF ∧ (14 : RegIdx) ≠ VF := by decide

theorem test_witness_LdDtSetsTheTimer : nextInstr (at200 0xFF15) = some (.ldDt 15) := rfl

theorem test_witness_BcdStoresTheThreeDigits :
    (start 0x0200 0x0FFD [] 0 []).base + 2 = 0xFFF ∧ (start 0x0200 0 [] 0 []).base + 2 ≤ 0xFFF := by decide

theorem test_witness_RegisterBlockStore :
    (start 0x0200 0x0FFF [] 0 []).base + (0 : RegIdx).val = 0xFFF ∧
    (start 0x0200 0x0FF0 [] 0 []).base + (15 : RegIdx).val = 0xFFF ∧
    (15 : RegIdx).val ≤ (15 : RegIdx).val := by decide

theorem test_witness_RegisterBlockLoad :
    (start 0x0200 0x0FFF [] 0 []).base + (0 : RegIdx).val = 0xFFF ∧
    (start 0x0200 0x0FF0 [] 0 []).base + (15 : RegIdx).val = 0xFFF ∧
    (14 : RegIdx).val < (15 : RegIdx).val := by decide

/-- The first I at which each instruction faults; and a height 0, which never does. -/
theorem test_witness_DataAccessPastTheEndFaults :
    (start 0x0200 0x0FFE [] 0 []).base + 2 = 0x1000 ∧ (start 0x0200 0x0FFE [] 0 []).base ≤ 0xFFF ∧
    (start 0x0200 0x0FFF [] 0 []).base + (1 : RegIdx).val = 0x1000 ∧
    (start 0x0200 0x0FF1 [] 0 []).base + (15 : RegIdx).val = 0x1000 ∧
    (start 0x0200 0x0FFF [] 0 []).base + 2 - 1 = 0x1000 ∧
    (start 0x0200 0x0FF2 [] 0 []).base + 15 - 1 = 0x1000 := by decide

theorem test_witness_StoreThenLoadGivesTheRegistersBack : ∃ t u : State,
    exec (.stRegs 15) (start 0x0200 0x0FF0 [(15, 0xAA)] 0 []) = .next t ∧
    u.i = (start 0x0200 0x0FF0 [(15, 0xAA)] 0 []).i ∧ u.mem = t.mem ∧ u.regs ≠ t.regs :=
  ⟨_, { State.reset with i := 0x0FF0, mem := [(0xFFF, 0xAA)] }, rfl, rfl, by decide, by decide⟩

/-- A store over the next instruction's bytes, at the lowest address a fetch accepts. -/
theorem test_witness_NextFetchSeesTheStore : ∃ t u : State,
    exec (.stRegs 1) (start 0x0300 0x0200 [(0, 0x12), (1, 0x08)] 0 []) = .next t ∧
    (1 : RegIdx).val = (0 : RegIdx).val + 1 ∧ u.mem = t.mem ∧
    u.pc.toNat = (start 0x0300 0x0200 [] 0 []).base + (0 : RegIdx).val ∧ 0x0200 ≤ u.pc.toNat :=
  ⟨_, { State.reset with mem := [(0x200, 0x12), (0x201, 0x08)] }, rfl, rfl, by decide, by decide, by decide⟩

/-- The empty memory and one written to and back. -/
theorem test_witness_CanonicalMemoriesThatReadAlikeAreEqual :
    Memory.wf [] ∧ ((Memory.put [] 0x300 7).put 0x300 0).wf ∧ (Memory.put [] 0x300 7).wf ∧
    ∀ a, ((Memory.put [] 0x300 7).put 0x300 0).byte a = Memory.byte [] a := by
  refine ⟨by decide, by decide, by decide, fun a => ?_⟩
  rw [show (Memory.put [] 0x300 7).put 0x300 0 = [] from rfl]

theorem test_witness_ToggleMutatesExactlyOneCell :
    (0 < 64 ∧ 31 < 32 ∧ ¬(0 = 63 % 64 ∧ 31 = 63 % 32)) ∧ (63 < 64 ∧ 0 < 32 ∧ ¬(63 = 64 % 64 ∧ 0 = 32 % 32)) := by
  decide

/-- Height 0 with I past the end, height 15 ending at 0xFFF, a draw that collides and one that does not. -/
theorem test_witness_DrawIsXorWithTheSprite :
    (0 = 0 ∨ (start 0x0200 0xFFFF [] 0 []).base + 0 - 1 ≤ 0xFFF) ∧
    (start 0x0200 0x0FF1 [] 0 []).base + 15 - 1 = 0xFFF ∧
    Collides (screenOf [(63, 31)]) 63 31 [0x80] ∧ ¬Collides Screen.clear 63 31 [0x80] :=
  ⟨by decide, by decide, ⟨63, 31, by decide⟩, fun ⟨x, y, _, _, h, _⟩ => by rw [Screen.pixel_clear] at h; cases h⟩

/-- A draw at the last pixel of the screen, which turns it on. -/
theorem test_witness_DrawingTwiceRestoresTheScreen :
    (14 : RegIdx) ≠ VF ∧ (0 : RegIdx) ≠ VF ∧
    nextIs (exec (.drw 0 14 1) (start 0x0200 0x0FFF [(0, 63), (14, 31)] 0xFFF [0x80]))
      (fun t => t.fb.pixel 63 31 && !(start 0x0200 0x0FFF [(0, 63), (14, 31)] 0xFFF [0x80]).fb.pixel 63 31) = true :=
  by decide

end Sys2Proof.Tests
end

section
/-!
PROOFS. The illegal words (30_encoding.md rule R58). A row's mask asks for the top digit and the low `l` bits of
a word, so a row accepts a word exactly when those two numbers are its value's; the complement of the 26 rows
is then compared with the list of rule R58 one top digit at a time.
-/

namespace Sys2Proof.Laws

open Sys2Proof.Machine Sys2Proof.Safety

/-! ### A row of the table in numbers -/

/-- The masks of rule R56 keep the top digit and the low `l` bits, with `l` one of 0, 4, 8 and 12. -/
theorem toNat_and_mask (w : Word) {l : Nat} (hl : l ≤ 12) :
    (w &&& BitVec.ofNat 16 (0xF000 + (2 ^ l - 1))).toNat = w.toNat / 4096 * 4096 + w.toNat % 2 ^ l := by
  have hpow : 2 ^ l ≤ 2 ^ 12 := Nat.pow_le_pow_right (by decide) hl
  have hpos : 0 < 2 ^ l := Nat.two_pow_pos l
  have htop : (w.toNat &&& (0xF000 + (2 ^ l - 1))) / 2 ^ 12 = w.toNat / 4096 := by
    rw [Nat.and_div_two_pow, show (0xF000 + (2 ^ l - 1)) / 2 ^ 12 = 2 ^ 4 - 1 by omega,
      Nat.and_two_pow_sub_one_eq_mod]
    omega
  have hlow : (w.toNat &&& (0xF000 + (2 ^ l - 1))) % 2 ^ 12 = w.toNat % 2 ^ l := by
    rw [Nat.and_mod_two_pow, show (0xF000 + (2 ^ l - 1)) % 2 ^ 12 = 2 ^ l - 1 by omega,
      Nat.and_two_pow_sub_one_eq_mod, Nat.mod_mod_of_dvd _ (Nat.pow_dvd_pow 2 hl)]
  rw [BitVec.toNat_and, BitVec.toNat_ofNat, Nat.mod_eq_of_lt (by omega)]
  omega

/-- A word agrees with a row's value under such a mask exactly when it has the value's top digit and the value's
low 12 bits are the word's low `l` bits. -/
theorem and_mask_eq_iff (w v : Word) {l : Nat} (hl : l ≤ 12) :
    w &&& BitVec.ofNat 16 (0xF000 + (2 ^ l - 1)) = v ↔
      w.toNat / 4096 = v.toNat / 4096 ∧ w.toNat % 2 ^ l = v.toNat % 4096 := by
  have hpow : 2 ^ l ≤ 2 ^ 12 := Nat.pow_le_pow_right (by decide) hl
  have hlow : w.toNat % 2 ^ l < 2 ^ l := Nat.mod_lt _ (Nat.two_pow_pos l)
  rw [BitVec.toNat_eq, toNat_and_mask w hl]
  omega

/-- The words no row accepts are those rule R58 lists: the four masks read as digits, then one case for each top
digit, where the rows of the other digits fall away. -/
theorem no_row_accepts_iff_illegalWord (w : Word) :
    (∀ r ∈ opcodeTable, r.accepts w = false) ↔ IllegalWord w := by
  have hF000 (v : Word) : w &&& 0xF000#16 = v ↔ _ := and_mask_eq_iff w v (l := 0) (by decide)
  have hF00F (v : Word) : w &&& 0xF00F#16 = v ↔ _ := and_mask_eq_iff w v (l := 4) (by decide)
  have hF0FF (v : Word) : w &&& 0xF0FF#16 = v ↔ _ := and_mask_eq_iff w v (l := 8) (by decide)
  have hFFFF (v : Word) : w &&& 0xFFFF#16 = v ↔ _ := and_mask_eq_iff w v (l := 12) (by decide)
  simp only [← Bool.not_eq_true, accepts_iff, opcodeTable, List.cons_append, List.nil_append, List.forall_mem_cons,
    rowCls, rowRet, rowJp, rowCall, rowSeImm, rowSneImm, rowSeReg, rowLdImm, rowAddImm, rowLdReg, rowOr, rowAnd,
    rowXor, rowAddReg, rowSub, rowShr, rowSubn, rowShl, rowSneReg, rowLdI, rowJpV0, rowDrw, rowLdDt, rowLdBcd,
    rowStRegs, rowLdRegs, BitVec.ofNat_eq_ofNat, hF000, hF00F, hF0FF, hFFFF, IllegalWord]
  have htop : w.toNat / 4096 < 16 := by omega
  generalize hd : w.toNat / 4096 = d at htop ⊢
  interval_cases d <;> simp <;> omega

/-- The decoder rejects a word, with the word itself, exactly when rule R58 lists it. -/
theorem decode_error_iff_illegalWord {w : Word} :
    decode w = .error (.unimplementedOpcode w) ↔ IllegalWord w := by
  rw [← no_row_accepts_iff_illegalWord]
  constructor
  · exact fun h => (decode_error h).2
  · intro hrows
    cases hd : decode w with
    | ok i =>
      obtain ⟨r, hr, ha, -⟩ := decode_ok hd
      simp [hrows r hr] at ha
    | error e => rw [(decode_error hd).1]

/-- The decoder answers an instruction for every word rule R58 does not list, and for no other. -/
theorem decode_ok_iff_not_illegalWord {w : Word} : (∃ i, decode w = .ok i) ↔ ¬IllegalWord w := by
  rw [← decode_error_iff_illegalWord]
  cases hd : decode w with
  | ok i => simp
  | error e => simp [(decode_error hd).1]

/-! ### A Step on an illegal word -/

theorem step_of_illegalWord {s : State} {w : Word} (hf : fetch s = .ok w) (hw : IllegalWord w) :
    step s = .fault (.unimplementedOpcode w) :=
  step_fault.mpr (.inr (.inl ⟨w, hf, fun i hi => decode_ok_iff_not_illegalWord.mp ⟨i, hi⟩ hw, rfl⟩))

/-- The host keeps the state a faulting Step started from and sets its phase flag (rules R156, R183). -/
theorem hostOp_step_of_fault {s : State} {f : Fault} (h : step s = .fault f) :
    hostOp .step s = ({ s with stepped := true }, .fault f) := by
  simp only [hostOp, hostStep, h]

end Sys2Proof.Laws

namespace Sys2Proof.Proofs

open Sys2Proof.Laws

/-- Settles O5: the complement of the opcode table is the list of rule R58, digit by digit, and a Step on a word
of it faults in its decode. -/
theorem illegalWordsFault : Obligations.IllegalWordsFault := by
  intro w
  refine ⟨decode_error_iff_illegalWord, decode_ok_iff_not_illegalWord, fun hw s hf => ?_⟩
  have hstep := step_of_illegalWord hf hw
  exact ⟨hstep, hostOp_step_of_fault hstep⟩

end Sys2Proof.Proofs
end

section
/-!
PROOFS. CALL (41_flow.md rule R82). With a top digit for `m`, the rules' word `m | nnn` is format A, so the decoder reads
it through the row of CALL. What CALL does to the state is `execCall_next` and `execCall_fault`; here the call stack
it leaves is read slot by slot.
-/

namespace Sys2Proof.Laws

open Sys2Proof.Machine Sys2Proof.Safety

/-! ### Words of format A -/

/-- The rules' `m | nnn` is format A when `m` is a top digit followed by zeros. -/
theorem wordA_eq_formatA (op : BitVec 4) (nnn : Addr) : wordA (op ++ 0#12) nnn = formatA op nnn := by
  have hnnn : nnn.setWidth 16 = 0#4 ++ nnn := BitVec.setWidth_eq_append (by decide)
  rw [wordA, formatA, hnnn, BitVec.or_append, BitVec.or_zero, BitVec.zero_or]

@[simp] theorem fieldNnn_formatA (op : BitVec 4) (nnn : Addr) : fieldNnn (formatA op nnn) = nnn :=
  BitVec.extractLsb'_append_eq_right

theorem decode_call (nnn : Addr) : decode (wordA 0x2000 nnn) = .ok (.call nnn) := by
  have hword : wordA 0x2000 nnn = formatA 0x2 nnn := wordA_eq_formatA 0x2 nnn
  have hrow : rowCall.accepts (formatA 0x2 nnn) = true := accepts_iff.mpr (OwnRow.call nnn)
  rw [hword, decode_of_accepts (by simp [opcodeTable]) hrow]
  simp [rowCall]

/-! ### Jump targets and return addresses -/

@[simp] theorem absolute_toNat (nnn : Addr) : (absolute nnn).toNat = nnn.toNat :=
  BitVec.toNat_setWidth_of_le (by decide)

/-- A written slot of the call stack reads as the value, and every other slot as before. -/
theorem stack_get_set (stack : Vector Word 16) {k : Nat} (hk : k < 16) (j : Fin 16) (a : Word) :
    (stack.set k a hk).get j = if j.val = k then a else stack.get j := by
  simp [Vector.get_eq_getElem, Vector.getElem_set, eq_comm]

end Sys2Proof.Laws

namespace Sys2Proof.Proofs

open Sys2Proof.Laws Sys2Proof.Machine

/-- Settles O30: with 16 entries the push overflows; with fewer the next state is the one `execCall_next` names,
which differs from `s` in pc, SP and the slot at SP. -/
theorem callPushesTheReturnAddress : Obligations.CallPushesTheReturnAddress := by
  intro nnn s
  refine ⟨decode_call nnn, fun hfull => execCall_fault.mpr ⟨hfull, rfl⟩, fun k hk => ?_⟩
  have hroom : s.sp.val < 16 := hk ▸ k.isLt
  have hslot (j : Fin 16) := stack_get_set s.stack hroom j (s.pc + 2)
  refine ⟨_, execCall_next.mpr ⟨hroom, rfl⟩, absolute_toNat nnn, rfl, ?_, fun j hj => ?_, fun _ _ => rfl, fun _ => rfl,
    rfl, rfl, rfl, rfl⟩
  · rw [State.jump_stack, hslot, if_pos hk, BitVec.toNat_add]
    rfl
  · rw [State.jump_stack, hslot, if_neg (hk ▸ Fin.val_ne_of_ne hj)]

end Sys2Proof.Proofs
end

section
/-!
PROOFS. The conditional skips (42_skip.md). The rules' words of formats XI and XY are `formatXI` and `formatXY` of their
fields, so the decoder reads them through their own rows; a word of format XY with a fourth nibble stands in the list of
rule R58. All four instructions are `State.skipIf` of their condition, and what the rules say of each is what `skipIf`
keeps and where it puts pc.
-/

namespace Sys2Proof.Laws

open Sys2Proof.Machine Sys2Proof.Safety

/-! ### Words of formats XI and XY -/

theorem toNat_append_eq_mul_add {n m : Nat} (a : BitVec n) (b : BitVec m) :
    (a ++ b).toNat = a.toNat * 2 ^ m + b.toNat := by
  rw [BitVec.toNat_append, ← Nat.shiftLeft_add_eq_or_of_lt b.isLt, Nat.shiftLeft_eq]

/-- `x << 8` puts the register index in bits 11 to 8. -/
theorem index_shiftLeft_eight (x : RegIdx) : BitVec.ofNat 16 x.val <<< 8 = 0#4 ++ (nibble x ++ 0#8) := by
  decide +revert

/-- `y << 4` puts the register index in bits 7 to 4. -/
theorem index_shiftLeft_four (y : RegIdx) : BitVec.ofNat 16 y.val <<< 4 = 0#4 ++ (0#4 ++ (nibble y ++ 0#4)) := by
  decide +revert

theorem byte_setWidth (nn : Byte) : nn.setWidth 16 = 0#4 ++ (0#4 ++ nn) := by
  rw [BitVec.toNat_eq, BitVec.toNat_setWidth_of_le (by decide), toNat_append_eq_mul_add, toNat_append_eq_mul_add]
  simp

theorem nibble_setWidth (n : BitVec 4) : n.setWidth 16 = 0#4 ++ (0#4 ++ (0#4 ++ n)) := by
  decide +revert

/-- The rules' `m | x << 8 | nn` is format XI when `m` is a top digit followed by zeros. -/
theorem wordXI_eq_formatXI (op : BitVec 4) (x : RegIdx) (nn : Byte) : wordXI (op ++ 0#12) x nn = formatXI op x nn := by
  have hop : op ++ 0#12 = op ++ (0#4 ++ 0#8) := rfl
  rw [wordXI, formatXI, hop, index_shiftLeft_eight, byte_setWidth]
  iterate 4 rw [BitVec.or_append]
  simp only [BitVec.or_zero, BitVec.zero_or]

/-- The rules' `m | x << 8 | y << 4` is format XY when `m` has a top digit, a fourth nibble and zeros between. -/
theorem wordXY_eq_formatXY (op last : BitVec 4) (x y : RegIdx) :
    wordXY (op ++ (0#4 ++ (0#4 ++ last))) x y = formatXY op x y last := by
  have hlow : nibble x ++ 0#8 = nibble x ++ (0#4 ++ 0#4) := rfl
  rw [wordXY, formatXY, index_shiftLeft_eight, hlow, index_shiftLeft_four]
  iterate 6 rw [BitVec.or_append]
  simp only [BitVec.or_zero, BitVec.zero_or]

/-- A number of one digit or-ed to a word of format XY is or-ed to its fourth nibble. -/
theorem formatXY_or_nibble (op last n : BitVec 4) (x y : RegIdx) :
    formatXY op x y last ||| n.setWidth 16 = formatXY op x y (last ||| n) := by
  rw [formatXY, formatXY, nibble_setWidth]
  iterate 3 rw [BitVec.or_append]
  simp only [BitVec.or_zero]

@[simp] theorem fieldX_formatXI (op : BitVec 4) (x : RegIdx) (nn : Byte) : fieldX (formatXI op x nn) = x := by
  rw [fieldX, formatXI, BitVec.extractLsb'_append_eq_of_add_le (by decide), BitVec.extractLsb'_append_eq_left, nibble]

@[simp] theorem fieldNn_formatXI (op : BitVec 4) (x : RegIdx) (nn : Byte) : fieldNn (formatXI op x nn) = nn := by
  rw [fieldNn, formatXI, BitVec.extractLsb'_append_eq_of_add_le (by decide), BitVec.extractLsb'_append_eq_right]

@[simp] theorem fieldX_formatXY (op last : BitVec 4) (x y : RegIdx) : fieldX (formatXY op x y last) = x := by
  rw [fieldX, formatXY, BitVec.extractLsb'_append_eq_of_add_le (by decide), BitVec.extractLsb'_append_eq_left, nibble]

@[simp] theorem fieldY_formatXY (op last : BitVec 4) (x y : RegIdx) : fieldY (formatXY op x y last) = y := by
  rw [fieldY, formatXY, BitVec.extractLsb'_append_eq_of_add_le (by decide),
    BitVec.extractLsb'_append_eq_of_add_le (by decide), BitVec.extractLsb'_append_eq_left, nibble]

theorem formatXY_toNat (op last : BitVec 4) (x y : RegIdx) :
    (formatXY op x y last).toNat = op.toNat * 4096 + (x.val * 256 + (y.val * 16 + last.toNat)) := by
  rw [formatXY, toNat_append_eq_mul_add, toNat_append_eq_mul_add, toNat_append_eq_mul_add]
  rfl

/-- With top digit 5 or 9 a word of format XY is illegal unless its fourth nibble is 0 (rules R92, R93). -/
theorem illegalWord_formatXY {op last : BitVec 4} (hop : op = 5 ∨ op = 9) (hlast : last ≠ 0) (x y : RegIdx) :
    IllegalWord (formatXY op x y last) := by
  have hpos : last.toNat ≠ 0 := fun h => hlast (BitVec.eq_of_toNat_eq h)
  have hdigit : (formatXY op x y last).toNat / 4096 = op.toNat := by
    rw [formatXY_toNat]
    omega
  have hnibble : (formatXY op x y last).toNat % 16 = last.toNat := by
    rw [formatXY_toNat]
    omega
  have htop : op.toNat = 5 ∨ op.toNat = 9 := hop.imp (congrArg BitVec.toNat) (congrArg BitVec.toNat)
  refine .inr (.inl ?_)
  rw [hdigit, hnibble]
  exact ⟨htop, Nat.one_le_iff_ne_zero.mpr hpos⟩

/-! ### The decoder on the word of an instruction -/

theorem rowOf_mem_opcodeTable (i : Instr) : rowOf i ∈ opcodeTable := by
  cases i <;> simp [rowOf, opcodeTable]

/-- The word of an instruction decodes to it when the instruction's row reads its operands back. -/
theorem decode_of_eq_encode {w : Word} {i : Instr} (hword : w = encode i) (hrow : OwnRow.Statement i)
    (hbuild : (rowOf i).build (encode i) = i) : decode w = .ok i := by
  rw [hword, decode_of_accepts (rowOf_mem_opcodeTable i) (accepts_iff.mpr hrow), hbuild]

theorem decode_seImm (x : RegIdx) (nn : Byte) : decode (wordXI 0x3000 x nn) = .ok (.seImm x nn) :=
  decode_of_eq_encode (wordXI_eq_formatXI 0x3 x nn) (OwnRow.seImm x nn) (by simp [rowOf, rowSeImm, encode])

theorem decode_sneImm (x : RegIdx) (nn : Byte) : decode (wordXI 0x4000 x nn) = .ok (.sneImm x nn) :=
  decode_of_eq_encode (wordXI_eq_formatXI 0x4 x nn) (OwnRow.sneImm x nn) (by simp [rowOf, rowSneImm, encode])

theorem decode_seReg (x y : RegIdx) : decode (wordXY 0x5000 x y) = .ok (.seReg x y) :=
  decode_of_eq_encode (wordXY_eq_formatXY 0x5 0x0 x y) (OwnRow.seReg x y) (by simp [rowOf, rowSeReg, encode])

theorem decode_sneReg (x y : RegIdx) : decode (wordXY 0x9000 x y) = .ok (.sneReg x y) :=
  decode_of_eq_encode (wordXY_eq_formatXY 0x9 0x0 x y) (OwnRow.sneReg x y) (by simp [rowOf, rowSneReg, encode])

/-- A fourth nibble in the word of SE Vx, Vy or SNE Vx, Vy: the decoder rejects it. -/
theorem decode_wordXY_or_nibble {m n : Word} (hm : m = 0x5000 ∨ m = 0x9000) (hpos : 1 ≤ n.toNat)
    (hn : n.toNat ≤ 15) (x y : RegIdx) :
    decode (wordXY m x y ||| n) = .error (.unimplementedOpcode (wordXY m x y ||| n)) := by
  obtain ⟨op, hop, rfl⟩ : ∃ op : BitVec 4, (op = 5 ∨ op = 9) ∧ m = op ++ (0#4 ++ (0#4 ++ 0#4)) := by
    rcases hm with rfl | rfl
    · exact ⟨5, .inl rfl, rfl⟩
    · exact ⟨9, .inr rfl, rfl⟩
  obtain ⟨last, rfl⟩ : ∃ last : BitVec 4, n = last.setWidth 16 := by
    have hlt : n < BitVec.twoPow 16 4 := Nat.lt_succ_of_le hn
    exact ⟨n.setWidth 4, (BitVec.setWidth_setWidth_eq_self hlt).symm⟩
  have hlast : last ≠ 0 := by
    rintro rfl
    exact absurd hpos (by decide)
  rw [decode_error_iff_illegalWord, wordXY_eq_formatXY, formatXY_or_nibble, BitVec.zero_or]
  exact illegalWord_formatXY hop hlast x y

/-! ### What a skip keeps and where it puts pc -/

theorem skipIf_keepsAllButRegs (s : State) (c : Bool) : KeepsAllButRegs [] s (s.skipIf c) :=
  ⟨fun r _ => s.skipIf_v c r, fun _ => by rw [State.skipIf_mem], ⟨s.skipIf_sp c, s.skipIf_stack c⟩, s.skipIf_i c,
    s.skipIf_dt c, s.skipIf_fb c, s.skipIf_stepped c⟩

theorem skipIf_advancesBy (s : State) (c : Bool) : AdvancesBy (if c then 4 else 2) s (s.skipIf c) := by
  cases c <;> exact BitVec.toNat_add _ _

/-- An instruction that is `skipIf` of a condition completes, keeps all but pc, and adds 4 to pc if the condition
holds, else 2. -/
theorem exec_of_skipIf {i : Instr} {s : State} {c : Bool} {p : Prop} [Decidable p]
    (hexec : exec i s = .next (s.skipIf c)) (hc : c = true ↔ p) :
    ∃ t, exec i s = .next t ∧ KeepsAllButRegs [] s t ∧ AdvancesBy (if p then 4 else 2) s t := by
  refine ⟨_, hexec, skipIf_keepsAllButRegs s c, ?_⟩
  simpa only [hc] using skipIf_advancesBy s c

theorem exec_of_skipIf_eq {i : Instr} {s : State} {a b : Byte} (hexec : exec i s = .next (s.skipIf (a == b))) :
    ∃ t, exec i s = .next t ∧ KeepsAllButRegs [] s t ∧ AdvancesBy (if a.toNat = b.toNat then 4 else 2) s t :=
  exec_of_skipIf hexec (beq_iff_eq.trans BitVec.toNat_eq)

theorem exec_of_skipIf_ne {i : Instr} {s : State} {a b : Byte} (hexec : exec i s = .next (s.skipIf (a != b))) :
    ∃ t, exec i s = .next t ∧ KeepsAllButRegs [] s t ∧ AdvancesBy (if a.toNat = b.toNat then 2 else 4) s t := by
  have hc : (a != b) = true ↔ ¬a.toNat = b.toNat := by rw [bne_iff_ne, Ne, BitVec.toNat_eq]
  simpa only [ite_not] using exec_of_skipIf hexec hc

end Sys2Proof.Laws

namespace Sys2Proof.Proofs

open Sys2Proof.Laws

/-- Settles O33: the words are those of SE and SNE with an immediate, and both instructions are `skipIf`. -/
theorem immediateSkips : Obligations.ImmediateSkips := by
  intro x nn s
  exact ⟨decode_seImm x nn, decode_sneImm x nn, exec_of_skipIf_eq rfl, exec_of_skipIf_ne rfl⟩

/-- Settles O34: as for O33, and a fourth nibble other than 0 puts the word in the list of rule R58. -/
theorem registerSkips : Obligations.RegisterSkips := by
  intro x y s
  exact ⟨decode_seReg x y, decode_sneReg x y, fun n hpos hn m hm => decode_wordXY_or_nibble hm hpos hn x y,
    exec_of_skipIf_eq rfl, exec_of_skipIf_ne rfl⟩

end Sys2Proof.Proofs
end

section
/-!
PROOFS. The register instructions that write no flag (43_alu.md rules R100 to R105). All six write one byte to Vx and
advance pc; what the rules say of the frame is said once of that update, and each instruction adds which byte it is.
-/

namespace Sys2Proof.Laws

open Sys2Proof.Machine Sys2Proof.Safety

/-! ### The decoder on their words -/

theorem decode_ldImm (x : RegIdx) (nn : Byte) : decode (wordXI 0x6000 x nn) = .ok (.ldImm x nn) :=
  decode_of_eq_encode (wordXI_eq_formatXI 0x6 x nn) (OwnRow.ldImm x nn) (by simp [rowOf, rowLdImm, encode])

theorem decode_addImm (x : RegIdx) (nn : Byte) : decode (wordXI 0x7000 x nn) = .ok (.addImm x nn) :=
  decode_of_eq_encode (wordXI_eq_formatXI 0x7 x nn) (OwnRow.addImm x nn) (by simp [rowOf, rowAddImm, encode])

theorem decode_ldReg (x y : RegIdx) : decode (wordXY 0x8000 x y) = .ok (.ldReg x y) :=
  decode_of_eq_encode (wordXY_eq_formatXY 0x8 0x0 x y) (OwnRow.ldReg x y) (by simp [rowOf, rowLdReg, encode])

theorem decode_or (x y : RegIdx) : decode (wordXY 0x8001 x y) = .ok (.or x y) :=
  decode_of_eq_encode (wordXY_eq_formatXY 0x8 0x1 x y) (OwnRow.or x y) (by simp [rowOf, rowOr, encode])

theorem decode_and (x y : RegIdx) : decode (wordXY 0x8002 x y) = .ok (.and x y) :=
  decode_of_eq_encode (wordXY_eq_formatXY 0x8 0x2 x y) (OwnRow.and x y) (by simp [rowOf, rowAnd, encode])

theorem decode_xor (x y : RegIdx) : decode (wordXY 0x8003 x y) = .ok (.xor x y) :=
  decode_of_eq_encode (wordXY_eq_formatXY 0x8 0x3 x y) (OwnRow.xor x y) (by simp [rowOf, rowXor, encode])

/-! ### A write to Vx that advances pc -/

theorem advancesBy_two_of_pc {s t : State} (hpc : t.pc = s.pc + 2) : AdvancesBy 2 s t := by
  rw [AdvancesBy, hpc]
  exact BitVec.toNat_add _ _

theorem setV_advance_keepsAllButRegs (s : State) (x : RegIdx) (b : Byte) :
    KeepsAllButRegs [x] s (s.setV x b).advance := by
  refine ⟨fun r hr => ?_, fun _ => rfl, ⟨rfl, rfl⟩, rfl, rfl, rfl, rfl⟩
  rw [State.advance_v, State.setV_v, if_neg (List.mem_singleton.not.mp hr)]

/-- An instruction that writes `b` to Vx and advances completes, with `b` in Vx and nothing else changed but pc. -/
theorem exec_of_setV_advance {i : Instr} {s : State} {x : RegIdx} {b : Byte}
    (hexec : exec i s = .next (s.setV x b).advance) :
    ∃ t, exec i s = .next t ∧ t.v x = b ∧ KeepsAllButRegs [x] s t ∧ AdvancesBy 2 s t :=
  ⟨_, hexec, by simp, setV_advance_keepsAllButRegs s x b, advancesBy_two_of_pc rfl⟩

/-- As `exec_of_setV_advance`, with the written byte given bit by bit. -/
theorem exec_of_setV_bits {i : Instr} {s : State} {x : RegIdx} {b : Byte} {bit : Nat → Bool}
    (hexec : exec i s = .next (s.setV x b).advance) (hbit : ∀ k, b.getLsbD k = bit k) :
    ∃ t, exec i s = .next t ∧ KeepsAllButRegs [x] s t ∧ AdvancesBy 2 s t ∧ ∀ k, (t.v x).getLsbD k = bit k := by
  obtain ⟨t, ht, hv, hkeeps, hpc⟩ := exec_of_setV_advance hexec
  exact ⟨t, ht, hkeeps, hpc, hv ▸ hbit⟩

end Sys2Proof.Laws

namespace Sys2Proof.Proofs

open Sys2Proof.Laws

/-- Settles O35: both instructions write their operand to Vx and advance. -/
theorem registerLoads : Obligations.RegisterLoads := by
  intro x y nn s
  exact ⟨decode_ldImm x nn, decode_ldReg x y, exec_of_setV_advance rfl, exec_of_setV_advance rfl⟩

/-- Settles O36: the byte written to Vx is a sum of bytes, which wraps, and no other register is written. -/
theorem addImmediateWrapsWithoutFlag : Obligations.AddImmediateWrapsWithoutFlag := by
  intro x nn s
  obtain ⟨t, ht, hv, hkeeps, hpc⟩ := exec_of_setV_advance (i := .addImm x nn) (s := s) rfl
  exact ⟨decode_addImm x nn, t, ht, hv ▸ BitVec.toNat_add _ _, hkeeps, hpc⟩

/-- Settles O37: the byte written to Vx is the bitwise combination of Vx and Vy, read off one bit at a time. -/
theorem bitwiseInstructions : Obligations.BitwiseInstructions := by
  intro x y s
  exact ⟨decode_or x y, decode_and x y, decode_xor x y, exec_of_setV_bits rfl fun _ => BitVec.getLsbD_or,
    exec_of_setV_bits rfl fun _ => BitVec.getLsbD_and, exec_of_setV_bits rfl fun _ => BitVec.getLsbD_xor⟩

end Sys2Proof.Proofs
end

section
/-!
PROOFS. LD I and LD DT (44_index_timer_memory.md rules R120, R121). The word of LD DT is format XS: top digit F, the
register index, a fixed low byte. Both instructions write one field and advance pc, so each next state is named once
below; the Step runs LD DT on the state whose timer it has already counted down, and the write covers that count.
-/

namespace Sys2Proof.Laws

open Sys2Proof.Machine Sys2Proof.Safety

/-! ### Words of format XS -/

/-- The rules' `m | x << 8` is format XS when `m` is the digit F, a zero and the low byte. -/
theorem wordXS_eq_formatXS (x : RegIdx) (low : Byte) : wordXS (0xF#4 ++ (0#4 ++ low)) x = formatXS x low := by
  rw [wordXS, formatXS, index_shiftLeft_eight]
  iterate 2 rw [BitVec.or_append]
  simp only [BitVec.or_zero, BitVec.zero_or]

/-- Format XS is format XI with top digit F, so its register index is read from the same bits. -/
@[simp] theorem fieldX_formatXS (x : RegIdx) (low : Byte) : fieldX (formatXS x low) = x :=
  fieldX_formatXI 0xF x low

theorem decode_ldI (nnn : Addr) : decode (wordA 0xA000 nnn) = .ok (.ldI nnn) :=
  decode_of_eq_encode (wordA_eq_formatA 0xA nnn) (OwnRow.ldI nnn) (by simp [rowOf, rowLdI, encode])

theorem decode_ldDt (x : RegIdx) : decode (wordXS 0xF015 x) = .ok (.ldDt x) :=
  decode_of_eq_encode (wordXS_eq_formatXS x 0x15) (OwnRow.ldDt x) (by simp [rowOf, rowLdDt, encode])

/-! ### The state they leave -/

theorem exec_ldI (nnn : Addr) (s : State) : exec (.ldI nnn) s = .next { s with i := absolute nnn }.advance := rfl

theorem exec_ldDt (x : RegIdx) (s : State) : exec (.ldDt x) s = .next { s with dt := s.v x }.advance := rfl

/-- The tick at the start of the Step leaves Vx, which the instruction then writes over the ticked DT. -/
theorem step_of_ldDt {s : State} {x : RegIdx} (h : nextInstr s = some (.ldDt x)) :
    step s = .next { s.beginStep with dt := s.v x }.advance := by
  rw [step_of_nextInstr h, exec_ldDt, State.beginStep_v]

end Sys2Proof.Laws

namespace Sys2Proof.Proofs

open Sys2Proof.Laws

/-- Settles O40: the next state of `exec_ldI` differs from `s` in I, the zero-extended nnn, and in pc. -/
theorem ldISetsTheIndex : Obligations.LdISetsTheIndex := by
  intro nnn s
  exact ⟨decode_ldI nnn, _, exec_ldI nnn s, absolute_toNat nnn, advancesBy_two_of_pc rfl,
    fun _ _ => rfl, fun _ => rfl, ⟨rfl, rfl⟩, rfl, rfl, rfl⟩

/-- Settles O41: the next state of `exec_ldDt` differs from `s` in DT and in pc, and after the whole Step DT is Vx too,
by `step_of_ldDt`. -/
theorem ldDtSetsTheTimer : Obligations.LdDtSetsTheTimer := by
  intro x s
  refine ⟨decode_ldDt x, fun hnext => ⟨_, step_of_ldDt hnext, rfl⟩, ?_⟩
  exact ⟨_, exec_ldDt x s, rfl, advancesBy_two_of_pc rfl,
    fun _ _ => rfl, fun _ => rfl, ⟨rfl, rfl⟩, rfl, rfl, rfl⟩

end Sys2Proof.Proofs
end

section
/-!
PROOFS. CLS (45_display.md rule R134). Its next state differs from the present one in the framebuffer and pc alone,
so every field of the frame is literally the old one.
-/

namespace Sys2Proof.Laws

open Sys2Proof.Machine Sys2Proof.Safety

theorem decode_cls : decode 0x00E0 = .ok .cls :=
  decode_of_eq_encode rfl OwnRow.cls rfl

theorem exec_cls (s : State) : exec .cls s = .next { s with fb := Screen.clear }.advance := rfl

end Sys2Proof.Laws

namespace Sys2Proof.Proofs

open Sys2Proof.Laws Sys2Proof.Machine

/-- Settles O50: the framebuffer of the next state of `exec_cls` is the cleared one, whose pixels are all off. -/
theorem clsClearsTheScreen : Obligations.ClsClearsTheScreen := by
  refine ⟨decode_cls, fun s => ⟨_, exec_cls s, fun x y _ _ => Screen.pixel_clear x y, rfl, ?_⟩⟩
  exact ⟨advancesBy_two_of_pc rfl, fun _ _ => rfl, fun _ => rfl, ⟨rfl, rfl⟩, rfl, rfl, rfl⟩

end Sys2Proof.Proofs
end

section
/-!
PROOFS. Encoding and decoding are inverse (30_encoding.md rules R52 to R57). A word is a top digit and its fields, in
each of the four formats; a row of the table fixes the top digit and its literal digits, so encoding what a row built
of a word gives the word back, and the row of an instruction builds it again from its word.
-/

namespace Sys2Proof.Laws

open Sys2Proof.Machine Sys2Proof.Safety

/-! ### From the instruction to the word and back -/

@[simp] theorem fieldN_formatXY (op last : BitVec 4) (x y : RegIdx) : fieldN (formatXY op x y last) = last.toNat := by
  rw [fieldN, formatXY, BitVec.extractLsb'_append_eq_of_add_le (by decide),
    BitVec.extractLsb'_append_eq_of_add_le (by decide), BitVec.extractLsb'_append_eq_right]

/-- The word of every instruction has the literal bits of the instruction's row. -/
theorem ownRow (i : Instr) : OwnRow.Statement i := by
  cases i with
  | cls => exact OwnRow.cls
  | ret => exact OwnRow.ret
  | jp nnn => exact OwnRow.jp nnn
  | call nnn => exact OwnRow.call nnn
  | seImm x nn => exact OwnRow.seImm x nn
  | sneImm x nn => exact OwnRow.sneImm x nn
  | seReg x y => exact OwnRow.seReg x y
  | ldImm x nn => exact OwnRow.ldImm x nn
  | addImm x nn => exact OwnRow.addImm x nn
  | ldReg x y => exact OwnRow.ldReg x y
  | or x y => exact OwnRow.or x y
  | and x y => exact OwnRow.and x y
  | xor x y => exact OwnRow.xor x y
  | addReg x y => exact OwnRow.addReg x y
  | sub x y => exact OwnRow.sub x y
  | shr x y => exact OwnRow.shr x y
  | subn x y => exact OwnRow.subn x y
  | shl x y => exact OwnRow.shl x y
  | sneReg x y => exact OwnRow.sneReg x y
  | ldI nnn => exact OwnRow.ldI nnn
  | jpV0 nnn => exact OwnRow.jpV0 nnn
  | drw x y n => exact OwnRow.drw x y n
  | ldDt x => exact OwnRow.ldDt x
  | ldBcd x => exact OwnRow.ldBcd x
  | stRegs x => exact OwnRow.stRegs x
  | ldRegs x => exact OwnRow.ldRegs x

/-- The instruction's row builds it again from its word. Only the sprite height can be lost in its field. -/
theorem build_encode {i : Instr} (hwf : i.wellFormed = true) : (rowOf i).build (encode i) = i := by
  cases i with
  | drw x y n =>
    have hn : n % 16 = n := Nat.mod_eq_of_lt (of_decide_eq_true hwf)
    simp [rowOf, rowDrw, encode, hn]
  | cls | ret => rfl
  | jp | call | ldI | jpV0 => simp [rowOf, rowJp, rowCall, rowLdI, rowJpV0, encode]
  | seImm | sneImm | ldImm | addImm => simp [rowOf, rowSeImm, rowSneImm, rowLdImm, rowAddImm, encode]
  | ldDt | ldBcd | stRegs | ldRegs => simp [rowOf, rowLdDt, rowLdBcd, rowStRegs, rowLdRegs, encode]
  | _ =>
    simp [rowOf, rowSeReg, rowLdReg, rowOr, rowAnd, rowXor, rowAddReg, rowSub, rowShr, rowSubn, rowShl, rowSneReg,
      encode]

theorem decode_encode {i : Instr} (hwf : i.wellFormed = true) : decode (encode i) = .ok i :=
  decode_of_eq_encode rfl (ownRow i) (build_encode hwf)

/-- The two bytes of a word, the high one first, are the word (rule R32). -/
theorem word_of_bytes (w : Word) : w.extractLsb' 8 8 ++ w.extractLsb' 0 8 = w :=
  (BitVec.extractLsb'_append_extractLsb'_eq_extractLsb' rfl).trans BitVec.extractLsb'_eq_self

theorem decodeBytes_wordBytes {w : Word} {i : Instr} (h : decode w = .ok i) (rest : List Byte) :
    decodeBytes (wordBytes w ++ rest) = .ok (i, rest) := by
  simp only [wordBytes, List.cons_append, List.nil_append, decodeBytes, word_of_bytes, h]

/-! ### From the word to the instruction and back -/

/-- The top digit of a word, the literal `op` of every format. -/
def topDigit (w : Word) : BitVec 4 := w.extractLsb' 12 4

theorem formatA_fields (w : Word) : formatA (topDigit w) (fieldNnn w) = w :=
  (BitVec.extractLsb'_append_extractLsb'_eq_extractLsb' rfl).trans BitVec.extractLsb'_eq_self

theorem fieldX_append_fieldNn (w : Word) : nibble (fieldX w) ++ fieldNn w = fieldNnn w :=
  BitVec.extractLsb'_append_extractLsb'_eq_extractLsb' rfl

theorem fieldY_append_fieldN (w : Word) : nibble (fieldY w) ++ BitVec.ofNat 4 (fieldN w) = fieldNn w := by
  have hn : BitVec.ofNat 4 (fieldN w) = w.extractLsb' 0 4 := by rw [fieldN, BitVec.ofNat_toNat, BitVec.setWidth_eq]
  rw [hn]
  exact BitVec.extractLsb'_append_extractLsb'_eq_extractLsb' rfl

theorem formatXI_fields (w : Word) : formatXI (topDigit w) (fieldX w) (fieldNn w) = w := by
  rw [formatXI, fieldX_append_fieldNn]
  exact formatA_fields w

theorem formatXY_fields (w : Word) :
    formatXY (topDigit w) (fieldX w) (fieldY w) (BitVec.ofNat 4 (fieldN w)) = w := by
  rw [formatXY, fieldY_append_fieldN]
  exact formatXI_fields w

/-- A word with the literal digit of a row of format A, XI or XYN has it as its top digit. -/
theorem topDigit_of_masked {w : Word} {op : BitVec 4} (h : w &&& 0xF000 = op ++ 0#12) : topDigit w = op := by
  rw [← formatA_fields w, formatA_masked, BitVec.append_left_inj] at h
  exact h

/-- The top digits of two equal words are equal, whatever stands behind them. -/
theorem topDigit_eq_of_append_eq {a b : BitVec 4} {c d : BitVec 12} (h : a ++ c = b ++ d) : a = b := by
  have htop := congrArg topDigit h
  rwa [topDigit, topDigit, BitVec.extractLsb'_append_eq_left, BitVec.extractLsb'_append_eq_left] at htop

/-- The mask of format XS on a word of format XI: the register index goes, the top digit and the low byte stay. -/
theorem formatXI_masked_low (op : BitVec 4) (x : RegIdx) (nn : Byte) :
    formatXI op x nn &&& 0xF0FF = op ++ (0#4 ++ nn) := by
  rw [formatXI, show (0xF0FF : Word) = 0xF#4 ++ (0#4 ++ 0xFF#8) from rfl, BitVec.and_append, BitVec.and_append]
  simp [and_byte, and_nibble]

theorem formatA_of_masked (op : BitVec 4) {w : Word} (h : w &&& 0xF000 = op ++ 0#12) :
    formatA op (fieldNnn w) = w := by
  rw [← topDigit_of_masked h, formatA_fields]

theorem formatXI_of_masked (op : BitVec 4) {w : Word} (h : w &&& 0xF000 = op ++ 0#12) :
    formatXI op (fieldX w) (fieldNn w) = w := by
  rw [← topDigit_of_masked h, formatXI_fields]

theorem formatXYN_of_masked (op : BitVec 4) {w : Word} (h : w &&& 0xF000 = op ++ 0#12) :
    formatXY op (fieldX w) (fieldY w) (BitVec.ofNat 4 (fieldN w)) = w := by
  rw [← topDigit_of_masked h, formatXY_fields]

theorem formatXY_of_masked (op last : BitVec 4) {w : Word}
    (h : w &&& 0xF00F = op ++ (0#4 ++ (0#4 ++ last))) : formatXY op (fieldX w) (fieldY w) last = w := by
  rw [← formatXY_fields w, formatXY_masked] at h
  have hop : topDigit w = op := topDigit_eq_of_append_eq h
  rw [hop, BitVec.append_right_inj, BitVec.append_right_inj, BitVec.append_right_inj] at h
  rw [← hop, ← h, formatXY_fields]

theorem formatXS_of_masked (low : Byte) {w : Word} (h : w &&& 0xF0FF = 0xF#4 ++ (0#4 ++ low)) :
    formatXS (fieldX w) low = w := by
  rw [← formatXI_fields w, formatXI_masked_low] at h
  have hop : topDigit w = 0xF#4 := topDigit_eq_of_append_eq h
  rw [hop, BitVec.append_right_inj, BitVec.append_right_inj] at h
  rw [formatXS, ← h, ← hop]
  exact formatXI_fields w

theorem literal_of_masked {w v : Word} (h : w &&& 0xFFFF = v) : v = w :=
  h.symm.trans BitVec.and_allOnes

/-- What a row of the table builds of a word it accepts encodes to that word: the rows in the table's order, each by the
inverse law of its format. -/
theorem encode_build {w : Word} : ∀ r ∈ opcodeTable, w &&& r.mask = r.value → encode (r.build w) = w := by
  simp only [opcodeTable, List.forall_mem_append, List.forall_mem_cons]
  exact ⟨⟨⟨literal_of_masked, literal_of_masked, formatA_of_masked 0x1, formatA_of_masked 0x2,
      formatXI_of_masked 0x3, formatXI_of_masked 0x4, formatXY_of_masked 0x5 0x0, formatXI_of_masked 0x6,
      formatXI_of_masked 0x7, nofun⟩,
    formatXY_of_masked 0x8 0x0, formatXY_of_masked 0x8 0x1, formatXY_of_masked 0x8 0x2,
      formatXY_of_masked 0x8 0x3, formatXY_of_masked 0x8 0x4, formatXY_of_masked 0x8 0x5,
      formatXY_of_masked 0x8 0x6, formatXY_of_masked 0x8 0x7, formatXY_of_masked 0x8 0xE,
      formatXY_of_masked 0x9 0x0, nofun⟩,
    formatA_of_masked 0xA, formatA_of_masked 0xB, formatXYN_of_masked 0xD, formatXS_of_masked 0x15,
      formatXS_of_masked 0x33, formatXS_of_masked 0x55, formatXS_of_masked 0x65, nofun⟩

theorem encode_of_decode {w : Word} {i : Instr} (h : decode w = .ok i) : encode i = w := by
  obtain ⟨r, hr, ha, rfl⟩ := decode_ok h
  exact encode_build r hr (accepts_iff.mp ha)

/-! ### One row a word -/

/-- Two rows of the table that accept the same word are the same row. -/
theorem row_unique {r q : OpcodeRow} (hr : r ∈ opcodeTable) (hq : q ∈ opcodeTable) {w : Word}
    (har : r.accepts w = true) (haq : q.accepts w = true) : r = q := by
  by_contra hne
  have hsymm : Std.Symm (fun r q : OpcodeRow => rowsDiffer r q = true) := ⟨fun r q h => by
    simpa only [rowsDiffer, BitVec.xor_comm, BitVec.and_assoc, BitVec.and_comm r.mask] using h⟩
  have hdiffer : rowsDiffer r q = true := opcodeTable_rows_differ.forall hr hq hne
  rw [not_rowsDiffer_of_accepts har haq] at hdiffer
  cases hdiffer

end Sys2Proof.Laws

namespace Sys2Proof.Proofs

open Sys2Proof.Laws

/-- Settles O2: the instruction's own row accepts its word and builds the instruction again; the bytes put the word
together again. -/
theorem decodeEncodeRoundTrip : Obligations.DecodeEncodeRoundTrip := by
  intro i rest hwf
  have hdecode := decode_encode hwf
  exact ⟨hdecode, decodeBytes_wordBytes hdecode rest⟩

/-- Settles O3: each row's encoder inverts its builder on the words the row accepts. -/
theorem decodedWordEncodesBack : Obligations.DecodedWordEncodesBack := by
  intro w i h
  exact ⟨encode_of_decode h, decode_wellFormed h⟩

/-- Settles O4: the row that made the instruction accepts the word, and no second row does. -/
theorem decodableWordsMatchExactlyOneRow : Obligations.DecodableWordsMatchExactlyOneRow := by
  intro w
  simp only [← accepts_iff]
  constructor
  · rintro ⟨i, h⟩
    obtain ⟨r, hr, ha, -⟩ := decode_ok h
    exact ⟨r, ⟨hr, ha⟩, fun q ⟨hq, haq⟩ => row_unique hq hr haq ha⟩
  · rintro ⟨r, ⟨hr, ha⟩, -⟩
    exact ⟨_, decode_of_accepts hr ha⟩

/-- Settles O1: the nine words are those of the nine instructions, so each decodes to its own. -/
theorem decodeReadsSampleWords : Obligations.DecodeReadsSampleWords :=
  ⟨decode_encode (i := .cls) rfl, decode_encode (i := .ret) rfl, decode_encode (i := .call 0xABC) rfl,
    decode_encode (i := .seImm 15 0x01) rfl, decode_encode (i := .sneReg 10 11) rfl,
    decode_encode (i := .shr 1 2) rfl, decode_encode (i := .jpV0 0xFFF) rfl, decode_encode (i := .drw 0 1 15) rfl,
    decode_encode (i := .stRegs 2) rfl⟩

end Sys2Proof.Proofs
end

section
/-!
PROOFS. What an instruction that completes changes, field by field (10_state.md section 9, who writes what). The case
split over the 26 instructions is made once, in `exec_changes`; the statements about all Steps read off one field each.
-/

namespace Sys2Proof.Laws

open Sys2Proof.Machine Sys2Proof.Safety

/-! ### Who writes what -/

/-- pc: advance, skip, absolute or return (rule R13). -/
@[simp] def PcAfter (i : Instr) (s t : State) : Prop :=
  match i with
  | .ret => ∃ k : Fin 16, k.val + 1 = s.sp.val ∧ t.pc = s.stack.get k
  | .jp nnn | .call nnn => t.pc = absolute nnn
  | .jpV0 nnn => t.pc = s.indexed nnn
  | .seImm _ _ | .sneImm _ _ | .seReg _ _ | .sneReg _ _ => t.pc = s.pc + 2 ∨ t.pc = s.pc + 4
  | _ => t.pc = s.pc + 2

/-- I: written by Annn (rule R14). -/
@[simp] def IndexAfter (i : Instr) (s t : State) : Prop :=
  match i with
  | .ldI nnn => t.i = absolute nnn
  | _ => t.i = s.i

/-- DT: written by Fx15 (rule R15). -/
@[simp] def TimerAfter (i : Instr) (s t : State) : Prop :=
  match i with
  | .ldDt x => t.dt = s.v x
  | _ => t.dt = s.dt

/-- SP and the slots: moved by CALL and RET (rules R16, R17). -/
@[simp] def StackAfter (i : Instr) (s t : State) : Prop :=
  match i with
  | .call _ => ∃ h : s.sp.val < 16, t.sp.val = s.sp.val + 1 ∧ t.stack = s.stack.set s.sp.val (s.pc + 2) h
  | .ret => t.sp.val + 1 = s.sp.val ∧ t.stack = s.stack
  | _ => t.sp = s.sp ∧ t.stack = s.stack

/-- Memory: written by Fx33 and Fx55, inside the 4096 bytes (rules R31, R35). -/
@[simp] def MemoryAfter (i : Instr) (s t : State) : Prop :=
  match i with
  | .ldBcd x => s.base + 3 ≤ 0x1000 ∧ t.mem = s.mem.putBytes s.base (bcdDigits (s.v x))
  | .stRegs x => s.base + (x.val + 1) ≤ 0x1000 ∧ t.mem = s.mem.putBytes s.base (s.block x)
  | _ => t.mem = s.mem

/-- The framebuffer: written by 00E0 and Dxyn (rule R20). -/
@[simp] def ScreenAfter (i : Instr) (s t : State) : Prop :=
  match i with
  | .cls | .drw _ _ _ => True
  | _ => t.fb = s.fb

/-- The registers an instruction may write: its destination, and VF where it reports a flag (rules R10, R11). -/
@[simp] def WritesReg (i : Instr) (r : RegIdx) : Prop :=
  match i with
  | .ldImm x _ | .addImm x _ | .ldReg x _ | .or x _ | .and x _ | .xor x _ => r = x
  | .addReg x _ | .sub x _ | .shr x _ | .subn x _ | .shl x _ => r = VF ∨ r = x
  | .drw _ _ _ => r = VF
  | .ldRegs x => r.val ≤ x.val
  | _ => False

/-- Everything an instruction that completes does to the state, up to the values in registers and framebuffer. -/
structure Changes (i : Instr) (s t : State) : Prop where
  pc : PcAfter i s t
  index : IndexAfter i s t
  timer : TimerAfter i s t
  stack : StackAfter i s t
  memory : MemoryAfter i s t
  screen : ScreenAfter i s t
  regs : ∀ r, ¬WritesReg i r → t.v r = s.v r
  phase : t.stepped = s.stepped

theorem exec_changes {i : Instr} {s t : State} (h : exec i s = .next t) : Changes i s t := by
  cases i with
  | ret =>
    obtain ⟨hsp, rfl⟩ := execRet_next.mp h
    have hk : s.sp.val - 1 + 1 = s.sp.val := Nat.succ_pred hsp
    exact ⟨⟨⟨s.sp.val - 1, by omega⟩, hk, rfl⟩, rfl, rfl, ⟨hk, rfl⟩, rfl, rfl, fun _ _ => rfl, rfl⟩
  | call nnn =>
    obtain ⟨hsp, rfl⟩ := execCall_next.mp h
    exact ⟨rfl, rfl, rfl, ⟨hsp, rfl, rfl⟩, rfl, rfl, fun _ _ => rfl, rfl⟩
  | ldBcd x =>
    obtain ⟨hrange, rfl⟩ := execLdBcd_next.mp h
    exact ⟨rfl, rfl, rfl, ⟨rfl, rfl⟩, ⟨hrange, rfl⟩, rfl, fun _ _ => rfl, rfl⟩
  | stRegs x =>
    obtain ⟨hrange, rfl⟩ := execStRegs_next.mp h
    exact ⟨rfl, rfl, rfl, ⟨rfl, rfl⟩, ⟨hrange, rfl⟩, rfl, fun _ _ => rfl, rfl⟩
  | ldRegs x =>
    obtain ⟨-, rfl⟩ := execLdRegs_next.mp h
    constructor
    case regs =>
      intro r hr
      rw [State.advance_v, State.setRegs_v, Memory.getBytes_getD, if_neg (Nat.lt_succ_iff.not.mpr hr)]
    all_goals simp
  | drw x y n =>
    obtain ⟨-, rfl⟩ := execDrw_next.mp h
    constructor
    case regs => exact fun r hr => (State.setV_v ..).trans (if_neg hr)
    all_goals simp
  | seImm | sneImm | seReg | sneReg =>
    obtain rfl := Host.Outcome.next.inj h
    constructor
    case pc => rw [PcAfter, State.skipIf_pc]; split <;> simp
    all_goals simp
  | ldImm | addImm | ldReg | or | and | xor =>
    obtain rfl := Host.Outcome.next.inj h
    constructor
    case regs => exact fun r hr => (State.setV_v ..).trans (if_neg hr)
    all_goals simp
  | addReg | sub | subn | shr | shl =>
    obtain rfl := Host.Outcome.next.inj h
    constructor
    case regs =>
      intro r hr
      obtain ⟨hvf, hx⟩ := not_or.mp hr
      exact (State.setResultFlag_v ..).trans ((if_neg hvf).trans (if_neg hx))
    all_goals simp
  | cls | jp | jpV0 | ldI | ldDt =>
    obtain rfl := Host.Outcome.next.inj h
    constructor <;> simp

/-- A Step that commits makes the changes of the instruction it ran, on the state with DT ticked. -/
theorem step_changes {s t : State} (h : step s = .next t) :
    ∃ i, nextInstr s = some i ∧ Changes i s.beginStep t := by
  obtain ⟨i, hi, hexec⟩ := step_next.mp h
  exact ⟨i, hi, exec_changes hexec⟩

/-! ### The values written -/

@[simp] theorem timerTick_toNat (d : Byte) : (timerTick d).toNat = d.toNat - 1 := by
  unfold timerTick
  split
  · next h => rw [h]; rfl
  · next h =>
    have hpos : d.toNat ≠ 0 := fun h0 => h (BitVec.eq_of_toNat_eq h0)
    have hle : 1#8 ≤ d := BitVec.le_def.mpr (Nat.one_le_iff_ne_zero.mpr hpos)
    exact BitVec.toNat_sub_of_le hle

/-- The target of Bnnn is the exact sum: two summands of 8 and 12 bits stay below 2^16. -/
theorem indexed_toNat (s : State) (nnn : Addr) : (s.indexed nnn).toNat = (s.v V0).toNat + nnn.toNat := by
  have hv : (s.v V0).toNat < 2 ^ 8 := (s.v V0).isLt
  have hn : nnn.toNat < 2 ^ 12 := nnn.isLt
  rw [State.indexed, BitVec.toNat_add, absolute_toNat, BitVec.toNat_setWidth_of_le (by decide)]
  exact Nat.mod_eq_of_lt (by omega)

/-- pc of a Step that runs an instruction is in the fetch window, so advancing and skipping do not wrap. -/
theorem pc_add_toNat {s : State} {i : Instr} (hi : nextInstr s = some i) {k : Word} (hk : k.toNat ≤ 4) :
    (s.pc + k).toNat = s.pc.toNat + k.toNat := by
  obtain ⟨-, hhi⟩ := pc_of_nextInstr hi
  rw [BitVec.toNat_add]
  exact Nat.mod_eq_of_lt (by omega)

/-- Byte k of a block write reads back at k bytes from its base. -/
theorem byte_putBytes_add {m : Memory} {a k : Nat} {bs : List Byte} (hk : k < bs.length) (d : Byte) :
    (m.putBytes a bs).byte (a + k) = bs.getD k d := by
  rw [Memory.byte_putBytes, if_pos (Nat.le_add_right a k), Nat.add_sub_cancel_left]
  simp [hk]

/-- A block write leaves every byte outside the block. -/
theorem byte_putBytes_of_outside {m : Memory} {a b : Nat} {bs : List Byte} (h : ¬(a ≤ b ∧ b < a + bs.length)) :
    (m.putBytes a bs).byte b = m.byte b := by
  rw [Memory.byte_putBytes]
  split
  · next hle => exact List.getD_eq_default _ _ (by omega)
  · rfl

/-- A byte that differs after a block write stands in the block. -/
theorem mem_block_of_byte_putBytes_ne {m : Memory} {a b : Nat} {bs : List Byte}
    (h : (m.putBytes a bs).byte b ≠ m.byte b) : a ≤ b ∧ b < a + bs.length :=
  not_not.mp (mt byte_putBytes_of_outside h)

end Sys2Proof.Laws

namespace Sys2Proof.Proofs

open Sys2Proof.Laws Sys2Proof.Machine Sys2Proof.Safety

/-- Settles O11: the timer field of the changes, on the state whose DT the Step has ticked. -/
theorem timerAfterEveryStep : Obligations.TimerAfterEveryStep := by
  intro s t h
  obtain ⟨i, hi, hc⟩ := step_changes h
  have ht := hc.timer
  rw [hi]
  constructor
  · rintro x ⟨⟩
    exact ht
  · intro hne
    unfold TimerAfter at ht
    split at ht
    · exact absurd rfl (hne _)
    · rw [ht, State.beginStep_dt, timerTick_toNat]

/-- Settles O21: the index field of the changes. -/
theorem onlyLdIWritesI : Obligations.OnlyLdIWritesI := by
  intro s t h
  obtain ⟨i, hi, hc⟩ := step_changes h
  have hidx := hc.index
  rw [hi]
  unfold IndexAfter at hidx
  split at hidx
  · next nnn => exact .inl ⟨nnn, rfl, hidx ▸ absolute_toNat nnn⟩
  · next hne => exact .inr ⟨fun nnn e => hne nnn (Option.some.inj e), hidx⟩

/-- Settles O22: the stack field of the changes, the slots after a CALL read one by one. -/
theorem onlyCallAndRetMoveTheStack : Obligations.OnlyCallAndRetMoveTheStack := by
  intro s t h
  obtain ⟨i, hi, hc⟩ := step_changes h
  have hstack := hc.stack
  rw [hi]
  unfold StackAfter at hstack
  split at hstack
  · next nnn =>
    obtain ⟨hroom, hsp, hslots⟩ := hstack
    exact .inl ⟨nnn, rfl, hsp, fun k => hslots ▸ stack_get_set s.stack hroom k (s.pc + 2)⟩
  · exact .inr (.inl ⟨rfl, hstack⟩)
  · next hcall hret =>
    exact .inr (.inr ⟨fun nnn e => hcall nnn (Option.some.inj e), fun e => hret (Option.some.inj e), hstack⟩)

/-- Settles O23: the screen field of the changes. -/
theorem onlyClsAndDrwWriteTheScreen : Obligations.OnlyClsAndDrwWriteTheScreen := by
  intro s t h hne
  obtain ⟨i, hi, hc⟩ := step_changes h
  have hfb := hc.screen
  rw [hi]
  unfold ScreenAfter at hfb
  split at hfb
  · exact .inl rfl
  · next x y n => exact .inr ⟨x, y, n, rfl⟩
  · exact absurd hfb hne

/-- Settles O24: the memory field of the changes; a byte that differs stands in the block stored, which the range check
has kept below 0x1000. -/
theorem onlyStoresWriteMemory : Obligations.OnlyStoresWriteMemory := by
  intro s t a h hne
  obtain ⟨i, hi, hc⟩ := step_changes h
  have hmem := hc.memory
  rw [hi]
  unfold MemoryAfter at hmem
  split at hmem
  · next x =>
    obtain ⟨hrange, hmem⟩ := hmem
    rw [hmem] at hne
    obtain ⟨hlo, hhi⟩ := mem_block_of_byte_putBytes_ne hne
    rw [bcdDigits_length] at hhi
    exact .inl ⟨x, rfl, hlo, Nat.le_of_lt_succ hhi, by omega⟩
  · next x =>
    obtain ⟨hrange, hmem⟩ := hmem
    rw [hmem] at hne
    obtain ⟨hlo, hhi⟩ := mem_block_of_byte_putBytes_ne hne
    rw [State.block_length] at hhi
    exact .inr ⟨x, rfl, hlo, Nat.le_of_lt_succ hhi, by omega⟩
  · exact absurd (congrArg (Memory.byte · a) hmem) hne

/-- Settles O25: VF changes only in an instruction that may write it; those are the ones listed. -/
theorem onlyFlagWritersAndDestinationsChangeVF : Obligations.OnlyFlagWritersAndDestinationsChangeVF := by
  intro s t h hne
  obtain ⟨i, hi, hc⟩ := step_changes h
  have hw : WritesReg i VF := by
    by_contra hw
    exact hne (hc.regs VF hw)
  rw [hi]
  cases i with
  | addReg x y => exact .inl ⟨x, y, .inl rfl⟩
  | sub x y => exact .inl ⟨x, y, .inr (.inl rfl)⟩
  | shr x y => exact .inl ⟨x, y, .inr (.inr (.inl rfl))⟩
  | subn x y => exact .inl ⟨x, y, .inr (.inr (.inr (.inl rfl)))⟩
  | shl x y => exact .inl ⟨x, y, .inr (.inr (.inr (.inr (.inl rfl))))⟩
  | drw x y n => exact .inl ⟨x, y, .inr (.inr (.inr (.inr (.inr ⟨n, rfl⟩))))⟩
  | ldImm x nn => obtain rfl : VF = x := hw; exact .inr (.inl ⟨nn, .inl rfl⟩)
  | addImm x nn => obtain rfl : VF = x := hw; exact .inr (.inl ⟨nn, .inr rfl⟩)
  | ldReg x y => obtain rfl : VF = x := hw; exact .inr (.inr (.inl ⟨y, .inl rfl⟩))
  | or x y => obtain rfl : VF = x := hw; exact .inr (.inr (.inl ⟨y, .inr (.inl rfl)⟩))
  | and x y => obtain rfl : VF = x := hw; exact .inr (.inr (.inl ⟨y, .inr (.inr (.inl rfl))⟩))
  | xor x y => obtain rfl : VF = x := hw; exact .inr (.inr (.inl ⟨y, .inr (.inr (.inr rfl))⟩))
  | ldRegs x =>
    have hx : x = VF := Fin.last_le_iff.mp (Fin.le_def.mpr hw)
    exact .inr (.inr (.inr (hx ▸ rfl)))
  | _ => exact hw.elim

/-- Settles O26: the pc field of the changes, its sums exact because pc is in the fetch window. -/
theorem pcIsWrittenInOneOfFourWays : Obligations.PcIsWrittenInOneOfFourWays := by
  intro s t h
  obtain ⟨i, hi, hc⟩ := step_changes h
  refine ⟨i, hi, ?_⟩
  have hadvance : (s.pc + 2).toNat = s.pc.toNat + 2 := pc_add_toNat hi (by decide)
  have hskip : (s.pc + 4).toNat = s.pc.toNat + 4 := pc_add_toNat hi (by decide)
  have hpc := hc.pc
  cases i with
  | ret => exact .inr (.inr (.inr (.inr ⟨rfl, hpc⟩)))
  | jp nnn => exact .inr (.inr (.inl ⟨nnn, .inl rfl, hpc ▸ absolute_toNat nnn⟩))
  | call nnn => exact .inr (.inr (.inl ⟨nnn, .inr rfl, hpc ▸ absolute_toNat nnn⟩))
  | jpV0 nnn => exact .inr (.inr (.inr (.inl ⟨nnn, rfl, hpc ▸ indexed_toNat s.beginStep nnn⟩)))
  | seImm | sneImm | seReg | sneReg =>
    rcases hpc with hpc | hpc
    · exact .inl ⟨(congrArg BitVec.toNat hpc).trans hadvance, by simp⟩
    · exact .inr (.inl ⟨(congrArg BitVec.toNat hpc).trans hskip, by simp⟩)
  | _ => exact .inl ⟨(congrArg BitVec.toNat hpc).trans hadvance, by simp⟩

end Sys2Proof.Proofs

namespace Sys2Proof.Laws

open Sys2Proof.Machine Sys2Proof.Safety Sys2Proof.Proofs

/-! ### The invariant (rule R24), part by part -/

/-- A store inside the 4096 bytes keeps the canonical form, and nothing else writes memory. -/
theorem memoryAfter_wf {i : Instr} {s t : State} (hwf : s.mem.wf) (h : MemoryAfter i s t) : t.mem.wf := by
  unfold MemoryAfter at h
  split at h
  · next x =>
    obtain ⟨hrange, hmem⟩ := h
    exact hmem ▸ Memory.putBytes_wf hwf _ (by rw [bcdDigits_length]; exact hrange)
  · next x =>
    obtain ⟨hrange, hmem⟩ := h
    exact hmem ▸ Memory.putBytes_wf hwf _ (by rw [State.block_length]; exact hrange)
  · exact h ▸ hwf

theorem step_keeps_index_bound {s t : State} (hidx : s.i.toNat ≤ 0x0FFF) (h : step s = .next t) :
    t.i.toNat ≤ 0x0FFF := by
  rcases onlyLdIWritesI s t h with ⟨nnn, -, hnew⟩ | ⟨-, hold⟩
  · have hnnn : nnn.toNat < 2 ^ 12 := nnn.isLt
    omega
  · rw [hold]
    exact hidx

/-- The part of the invariant about the call stack: every live entry is a return address in 0x0202 to 0x1000. -/
def LiveEntriesInRange (s : State) : Prop :=
  ∀ k : Fin 16, k.val < s.sp.val → 0x0202 ≤ (s.stack.get k).toNat ∧ (s.stack.get k).toNat ≤ 0x1000

/-- The greatest pc is that of Bnnn, 0xFF + 0xFFF; a return goes no higher than a live stack entry. -/
theorem step_keeps_pc_bound {s t : State} (hlive : LiveEntriesInRange s) (h : step s = .next t) :
    t.pc.toNat ≤ 0x10FE := by
  obtain ⟨i, hi, hpc⟩ := pcIsWrittenInOneOfFourWays s t h
  obtain ⟨-, hwindow⟩ := pc_of_nextInstr hi
  rcases hpc with ⟨hpc, -⟩ | ⟨hpc, -⟩ | ⟨nnn, -, hpc⟩ | ⟨nnn, -, hpc⟩ | ⟨-, k, hk, hpc⟩
  · omega
  · omega
  · have hnnn : nnn.toNat < 2 ^ 12 := nnn.isLt
    omega
  · have hnnn : nnn.toNat < 2 ^ 12 := nnn.isLt
    have hv : (s.v V0).toNat < 2 ^ 8 := (s.v V0).isLt
    omega
  · obtain ⟨-, hhi⟩ := hlive k (by omega)
    rw [hpc]
    omega

/-- The entry a CALL pushes is its own pc + 2, and pc is in the fetch window. -/
theorem step_keeps_live_entries {s t : State} (hlive : LiveEntriesInRange s) (h : step s = .next t) :
    LiveEntriesInRange t := by
  intro k hk
  rcases onlyCallAndRetMoveTheStack s t h with ⟨_, hi, hsp, hslots⟩ | ⟨-, hsp, hstack⟩ | ⟨-, -, hsp, hstack⟩
  · rw [hslots]
    split
    · have hpush : (s.pc + 2).toNat = s.pc.toNat + 2 := pc_add_toNat hi (by decide)
      obtain ⟨hlo, hhi⟩ := pc_of_nextInstr hi
      omega
    · exact hlive k (by omega)
  · rw [hstack]
    exact hlive k (by omega)
  · rw [hstack]
    exact hlive k (hsp ▸ hk)

end Sys2Proof.Laws

namespace Sys2Proof.Proofs

open Sys2Proof.Laws Sys2Proof.Machine

/-- Settles O15: each part of the invariant is kept by the field of the changes it speaks of; pc also needs the bound on
the live stack entries, and the entry a CALL pushes needs the fetch window. -/
theorem stepKeepsTheInvariant : Obligations.StepKeepsTheInvariant := by
  rintro s t ⟨hwf, hidx, -, hlive⟩ h
  obtain ⟨i, -, hc⟩ := step_changes h
  exact ⟨memoryAfter_wf (s := s.beginStep) hwf hc.memory, step_keeps_index_bound hidx h, step_keeps_pc_bound hlive h,
    step_keeps_live_entries hlive h⟩

end Sys2Proof.Proofs
end

section
/-!
PROOFS. How a Step can end (60_exceptions.md). The fetch, the decode and the six instructions that check something are
the only sources of a fault, and none of them looks at DT, at the phase flag or at a vacated stack slot. So a Step
repeats its fault, and two states that differ in these three alone step alike.
-/

namespace Sys2Proof.Laws

open Sys2Proof.Machine Sys2Proof.Safety

/-! ### Faults and refusals of an instruction -/

theorem next_ne_refused {t : State} {r : Refusal} : (Host.Outcome.next t : Result) ≠ .refused r := nofun

theorem next_ne_fault {t : State} {f : Fault} : (Host.Outcome.next t : Result) ≠ .fault f := nofun

theorem exec_ne_refused (i : Instr) (s : State) (r : Refusal) : exec i s ≠ .refused r := by
  intro h
  cases i with
  | ret | call | ldBcd | stRegs | ldRegs | drw =>
    simp only [exec, execRet, execCall, execLdBcd, execStRegs, execLdRegs, execDrw, raise] at h
    split at h <;> cases h
  | _ => exact next_ne_refused h

theorem step_ne_refused (s : State) (r : Refusal) : step s ≠ .refused r := by
  intro h
  unfold step at h
  split at h
  · cases h
  · split at h
    · cases h
    · exact exec_ne_refused _ _ _ h

/-- The instruction reads or stores `n` bytes from I (rule R126). -/
def Accesses (i : Instr) (n : Nat) : Prop :=
  (∃ x y, i = .drw x y n) ∨ (n = 3 ∧ ∃ x, i = .ldBcd x) ∨
    ∃ x : RegIdx, n = x.val + 1 ∧ (i = .stRegs x ∨ i = .ldRegs x)

/-- Everything an instruction can fault with, and when: it depends on SP and I alone. -/
theorem exec_fault {i : Instr} {s : State} {f : Fault} :
    exec i s = .fault f ↔
      (∃ nnn, i = .call nnn ∧ s.sp.val = 16 ∧ f = .stackOverflow) ∨
      (i = .ret ∧ s.sp.val = 0 ∧ f = .stackUnderflow) ∨ ∃ n, Accesses i n ∧ rangeFault s.base n = some f := by
  cases i with
  | ret => exact execRet_fault.trans (by simp [Accesses])
  | call nnn => exact execCall_fault.trans (by simp [Accesses])
  | ldBcd x => exact execLdBcd_fault.trans (by simp [Accesses])
  | stRegs x => exact execStRegs_fault.trans (by simp [Accesses])
  | ldRegs x => exact execLdRegs_fault.trans (by simp [Accesses])
  | drw x y n => exact execDrw_fault.trans (by simp [Accesses])
  | _ => exact iff_of_false next_ne_fault (by simp [Accesses])

/-- The range check in the terms of the spec: the last byte lies above 0xFFF (rule R35). -/
theorem rangeFault_eq_some {a n : Nat} {f : Fault} :
    rangeFault a n = some f ↔ n ≠ 0 ∧ 0xFFF < a + n - 1 ∧ f = .dataAddressOutOfRange (max a 0x1000) := by
  rw [rangeFault_some, and_assoc]
  exact and_congr_right fun hn => and_congr_left fun _ => by omega

/-- The faults of an instruction are those of the Step that runs it. -/
theorem exec_beginStep_fault {i : Instr} {s : State} {f : Fault} :
    exec i s.beginStep = .fault f ↔ exec i s = .fault f := by
  rw [exec_fault, exec_fault]
  rfl

/-! ### What no instruction looks at -/

/-- The state with other contents in what no instruction looks at: DT, the phase flag and the stack slots. -/
def withHidden (s : State) (d : Byte) (b : Bool) (slots : Vector Word 16) : State :=
  { s with dt := d, stepped := b, stack := slots }

/-- The slots agree with the state's stack on its live entries. -/
def AgreeOnLive (s : State) (slots : Vector Word 16) : Prop :=
  ∀ k : Fin 16, k.val < s.sp.val → slots.get k = s.stack.get k

variable {s t : State} {d : Byte} {b : Bool} {slots : Vector Word 16} {i : Instr} {f : Fault}

theorem exec_fault_withHidden : exec i (withHidden s d b slots) = .fault f ↔ exec i s = .fault f := by
  rw [exec_fault, exec_fault]
  rfl

theorem nextInstr_withHidden : nextInstr (withHidden s d b slots) = nextInstr s := nextInstr_congr rfl rfl

theorem fetch_withHidden : fetch (withHidden s d b slots) = fetch s := rfl

theorem step_fault_withHidden : step (withHidden s d b slots) = .fault f ↔ step s = .fault f := by
  simp only [step_fault, fetch_withHidden, nextInstr_withHidden, exec_beginStep_fault, exec_fault_withHidden]

theorem skipIf_withHidden (c : Bool) : (withHidden s d b slots).skipIf c = withHidden (s.skipIf c) d b slots := by
  cases c <;> rfl

/-- An instruction completes alike whatever stands in the hidden parts: RET alone reads the stack, a live entry; CALL
makes one more slot live, which it writes itself. -/
theorem exec_withHidden (hlive : AgreeOnLive s slots) (h : exec i s = .next t) :
    ∃ d' b' slots', exec i (withHidden s d b slots) = .next (withHidden t d' b' slots') ∧ AgreeOnLive t slots' := by
  cases i with
  | ret =>
    obtain ⟨hsp, rfl⟩ := execRet_next.mp h
    have htop : slots[s.sp.val - 1] = s.stack[s.sp.val - 1] := hlive ⟨s.sp.val - 1, by omega⟩ (by simp; omega)
    refine ⟨d, b, slots, execRet_next.mpr ⟨hsp, ?_⟩, fun k hk => hlive k (by simp at hk; omega)⟩
    simp only [withHidden, htop]
    rfl
  | call nnn =>
    obtain ⟨hsp, rfl⟩ := execCall_next.mp h
    refine ⟨d, b, slots.set s.sp.val (s.pc + 2), execCall_next.mpr ⟨hsp, rfl⟩, fun k hk => ?_⟩
    rw [State.jump_stack, stack_get_set, stack_get_set]
    split
    · rfl
    · next hne => exact hlive k (by simp at hk; omega)
  | ldBcd x =>
    obtain ⟨hrange, rfl⟩ := execLdBcd_next.mp h
    exact ⟨d, b, slots, execLdBcd_next.mpr ⟨hrange, rfl⟩, hlive⟩
  | stRegs x =>
    obtain ⟨hrange, rfl⟩ := execStRegs_next.mp h
    exact ⟨d, b, slots, execStRegs_next.mpr ⟨hrange, rfl⟩, hlive⟩
  | ldRegs x =>
    obtain ⟨hrange, rfl⟩ := execLdRegs_next.mp h
    exact ⟨d, b, slots, execLdRegs_next.mpr ⟨hrange, rfl⟩, hlive⟩
  | drw x y n =>
    obtain ⟨hrange, rfl⟩ := execDrw_next.mp h
    exact ⟨d, b, slots, execDrw_next.mpr ⟨hrange, rfl⟩, hlive⟩
  | ldDt x =>
    obtain rfl := Host.Outcome.next.inj h
    exact ⟨s.v x, b, slots, rfl, hlive⟩
  | seImm | sneImm | seReg | sneReg =>
    obtain rfl := Host.Outcome.next.inj h
    refine ⟨d, b, slots, congrArg Host.Outcome.next (skipIf_withHidden _), fun k hk => ?_⟩
    rw [State.skipIf_sp] at hk
    rw [State.skipIf_stack]
    exact hlive k hk
  | _ =>
    obtain rfl := Host.Outcome.next.inj h
    exact ⟨d, b, slots, rfl, hlive⟩

theorem step_withHidden (hlive : AgreeOnLive s slots) (h : step s = .next t) :
    ∃ d' b' slots', step (withHidden s d b slots) = .next (withHidden t d' b' slots') ∧ AgreeOnLive t slots' := by
  obtain ⟨i, hi, hexec⟩ := step_next.mp h
  obtain ⟨d', b', slots', hexec', hlive'⟩ :=
    exec_withHidden (s := s.beginStep) (d := timerTick d) (b := true) hlive hexec
  exact ⟨d', b', slots', step_next.mpr ⟨i, nextInstr_withHidden.trans hi, hexec'⟩, hlive'⟩

/-! ### The fetch -/

theorem fetch_of_window (hlo : 0x0200 ≤ s.pc.toNat) (hhi : s.pc.toNat ≤ 0x0FFE) :
    fetch s = .ok (s.mem.byte s.pc.toNat ++ s.mem.byte (s.pc.toNat + 1)) :=
  fetch_ok.mpr ⟨⟨hlo, hhi⟩, rfl⟩

theorem step_of_outside_window (h : s.pc.toNat < 0x0200 ∨ 0x0FFE < s.pc.toNat) :
    step s = .fault (.fetchOutOfRange s.pc) :=
  step_fault.mpr (.inl (fetch_error.mpr ⟨h, rfl⟩))

end Sys2Proof.Laws

namespace Sys2Proof.Proofs

open Sys2Proof.Laws Sys2Proof.Machine Sys2Proof.Safety

/-- Settles O6: inside the window the fetch gives the two bytes, and `beginStep` is the state named. -/
theorem stepRunsTheDecodedInstruction : Obligations.StepRunsTheDecodedInstruction := by
  intro s i hlo hhi hdecode
  exact step_of_decode (fetch_of_window hlo hhi) hdecode

/-- Settles O7: the word fetched is the high byte appended to the low one. -/
theorem fetchIsBigEndianInsideTheWindow : Obligations.FetchIsBigEndianInsideTheWindow := by
  intro s
  exact ⟨fun hlo hhi => ⟨_, fetch_of_window hlo hhi, toNat_append_eq_mul_add _ _⟩, step_of_outside_window⟩

/-- Settles O8: the fetch, the decode and the instruction fault under the conditions `fetch_error`,
`decode_ok_iff_not_illegalWord` and `exec_fault` give. -/
theorem stepFaultsExactlyWhen : Obligations.StepFaultsExactlyWhen := by
  intro s f
  rw [step_fault, fetch_error]
  refine or_congr Iff.rfl (or_congr ?_ ?_)
  · refine exists_congr fun w => and_congr_right fun _ => and_congr_left fun _ => ?_
    rw [← not_exists, decode_ok_iff_not_illegalWord, not_not]
  · cases nextInstr s with
    | none => simp
    | some i =>
      simp only [Option.some.injEq, exists_eq_left', exec_fault, rangeFault_eq_some]
      exact Iff.rfl

/-- Settles O9: no instruction answers a refusal, and the fetch and the decode can only fault. -/
theorem stepIsNeverRefused : Obligations.StepIsNeverRefused :=
  step_ne_refused

/-- Settles O27: an instruction looks at none of the three, and what a Step makes live agrees again. -/
theorem timerPhaseAndDeadSlotsAreUnobservable : Obligations.TimerPhaseAndDeadSlotsAreUnobservable := by
  intro s d b slots hlive
  refine ⟨fun f => step_fault_withHidden.symm, fun t h => ?_⟩
  obtain ⟨d', b', slots', hstep, hlive'⟩ := step_withHidden (d := d) (b := b) hlive h
  exact ⟨_, hstep, rfl, rfl, rfl, rfl, rfl, rfl, hlive'⟩

/-- Settles O10: the host keeps the state but for its flag, which is hidden from the next Step, so it faults again. -/
theorem faultingStepChangesNothingAndRepeats : Obligations.FaultingStepChangesNothingAndRepeats := by
  intro s f h
  have hfirst := hostOp_step_of_fault h
  have hagain : step { s with stepped := true } = .fault f :=
    step_fault_withHidden (d := s.dt) (b := true) (slots := s.stack).mpr h
  rw [hfirst]
  exact ⟨rfl, hostOp_step_of_fault hagain⟩

end Sys2Proof.Proofs
end

section
/-!
PROOFS. Jumps and returns (41_flow.md rules R80 to R84) and the self-jump that ends a run (rule R185). A jump writes pc
alone and leaves the check of its target to the next fetch.
-/

namespace Sys2Proof.Laws

open Sys2Proof.Machine Sys2Proof.Safety

/-! ### Jumps -/

theorem decode_jp (nnn : Addr) : decode (wordA 0x1000 nnn) = .ok (.jp nnn) :=
  decode_of_eq_encode (wordA_eq_formatA 0x1 nnn) (OwnRow.jp nnn) (build_encode rfl)

theorem decode_jpV0 (nnn : Addr) : decode (wordA 0xB000 nnn) = .ok (.jpV0 nnn) :=
  decode_of_eq_encode (wordA_eq_formatA 0xB nnn) (OwnRow.jpV0 nnn) (build_encode rfl)

theorem jump_keepsAllButRegs (s : State) (a : Word) : KeepsAllButRegs [] s (s.jump a) :=
  ⟨fun _ _ => rfl, fun _ => rfl, ⟨rfl, rfl⟩, rfl, rfl, rfl, rfl⟩

/-! ### Returns -/

/-- With k + 1 live entries RET goes to entry k and leaves k live. -/
theorem exec_ret_of_sp {s : State} {k : Fin 16} (hk : k.val + 1 = s.sp.val) :
    exec .ret s = .next (State.jump { s with sp := k.castSucc } (s.stack.get k)) := by
  refine execRet_next.mpr ⟨by omega, ?_⟩
  have hsp : s.sp.val - 1 = k.val := by omega
  simp only [hsp]
  rfl

/-! ### The self-jump -/

/-- A JP to its own address is the start of its Step and nothing more. -/
theorem step_of_selfJump {s : State} (h : AtSelfJump s) : step s = .next s.beginStep := by
  obtain ⟨nnn, hnext, hpc⟩ := h
  have hjump : s.beginStep.jump (absolute nnn) = s.beginStep := by rw [hpc]; rfl
  exact (step_of_nextInstr hnext).trans (congrArg Host.Outcome.next hjump)

theorem selfJump_beginStep {s : State} (h : AtSelfJump s) : AtSelfJump s.beginStep := by
  obtain ⟨nnn, hnext, hpc⟩ := h
  exact ⟨nnn, (nextInstr_congr rfl rfl).trans hnext, hpc⟩

end Sys2Proof.Laws

namespace Sys2Proof.Proofs

open Sys2Proof.Laws Sys2Proof.Machine Sys2Proof.Safety

/-- Settles O28: `exec_ret_of_sp` names the next state, whose pc is the entry; 0x1000 is outside the fetch window. -/
theorem retPopsIntoPc : Obligations.RetPopsIntoPc := by
  refine ⟨decode_encode (i := .ret) rfl, fun s hsp => execRet_fault.mpr ⟨hsp, rfl⟩, fun s k hk => ?_⟩
  refine ⟨_, exec_ret_of_sp hk, rfl, rfl, rfl, fun _ _ => rfl, fun _ => rfl, rfl, rfl, rfl, rfl, fun hentry => ?_⟩
  rw [hentry]
  refine step_of_outside_window (.inr ?_)
  rw [State.jump_pc]
  decide

/-- Settles O29: JP is the jump to nnn, and a target outside the window is the next fetch's fault. -/
theorem jpGoesToItsAddress : Obligations.JpGoesToItsAddress := by
  intro nnn s
  refine ⟨decode_jp nnn, _, rfl, absolute_toNat nnn, jump_keepsAllButRegs s _, fun h => step_of_outside_window ?_⟩
  rw [State.jump_pc, absolute_toNat]
  omega

/-- Settles O31: the sum of V0 and nnn is exact, so it is its own remainder; above 0x0FFE the next fetch faults. -/
theorem jpV0AddsV0 : Obligations.JpV0AddsV0 := by
  intro nnn s
  have hsum := indexed_toNat s nnn
  refine ⟨decode_jpV0 nnn, _, rfl, ?_, jump_keepsAllButRegs s _, fun h => step_of_outside_window (.inr ?_)⟩
  · rw [State.jump_pc, ← hsum]
    exact (Nat.mod_eq_of_lt (s.indexed nnn).isLt).symm
  · rw [State.jump_pc, hsum]
    exact h

/-- Settles O32: the CALL makes slot SP of `s` the top entry, and the RET goes to it. -/
theorem retComesBackBehindTheCall : Obligations.RetComesBackBehindTheCall := by
  intro nnn s t u hcall hsp hstack
  obtain ⟨hroom, rfl⟩ := execCall_next.mp hcall
  have hslot (j : Fin 16) : u.stack.get j = if j.val = s.sp.val then s.pc + 2 else s.stack.get j := by
    rw [hstack]
    exact stack_get_set s.stack hroom j _
  have htop : (⟨s.sp.val, hroom⟩ : Fin 16).val + 1 = u.sp.val := by rw [hsp]; rfl
  refine ⟨_, exec_ret_of_sp htop, ?_, rfl, fun k hk => ?_, fun _ _ => rfl, rfl, rfl, fun _ => rfl⟩
  · rw [State.jump_pc, hslot, if_pos rfl]
    exact BitVec.toNat_add _ _
  · rw [State.jump_stack, hslot, if_neg hk.ne]

/-- Settles O12: by induction on the number of Steps, each of which ticks DT and is again at the self-jump. -/
theorem selfJumpOnlyCountsTheTimerDown : Obligations.SelfJumpOnlyCountsTheTimerDown := by
  intro k
  induction k with
  | zero =>
    intro s h
    rw [core_run_succ (step_of_selfJump h), ← timerTick_toNat, BitVec.ofNat_toNat, BitVec.setWidth_eq]
    rfl
  | succ k ih =>
    intro s h
    have hcount : s.dt.toNat - 1 - (k + 1) = s.dt.toNat - (k + 1 + 1) := by omega
    rw [core_run_succ (step_of_selfJump h), ih s.beginStep (selfJump_beginStep h), State.beginStep_dt,
      timerTick_toNat, hcount]
    rfl

end Sys2Proof.Proofs
end

section
/-!
PROOFS. The instructions that report a flag (43_alu.md rules R106 to R110). All five write a result to Vx and then the
flag to VF; what is special to each is the arithmetic of the two bytes.
-/

namespace Sys2Proof.Laws

open Sys2Proof.Machine Sys2Proof.Safety

/-- An instruction that writes a result and a flag and advances completes: the flag stands in VF, the result in Vx
unless that is VF, and nothing else changes but pc. -/
theorem exec_of_setResultFlag {i : Instr} {s : State} {x : RegIdx} {result flag : Byte}
    (hexec : exec i s = .next (s.setResultFlag x result flag).advance) :
    ∃ t, exec i s = .next t ∧ (x ≠ VF → t.v x = result) ∧ t.v VF = flag ∧ KeepsAllButRegs [x, VF] s t ∧
      AdvancesBy 2 s t := by
  refine ⟨_, hexec, fun hx => ?_, ?_, ⟨fun r hr => ?_, fun _ => rfl, ⟨rfl, rfl⟩, rfl, rfl, rfl, rfl⟩,
    advancesBy_two_of_pc rfl⟩
  · rw [State.advance_v, State.setResultFlag_v, if_neg hx, if_pos rfl]
  · rw [State.advance_v, State.setResultFlag_v, if_pos rfl]
  · obtain ⟨hx, hvf⟩ : r ≠ x ∧ r ≠ VF := by simpa using hr
    rw [State.advance_v, State.setResultFlag_v, if_neg hvf, if_neg hx]

theorem flagByte_carry_toNat (a b : Byte) :
    (flagByte (carry a b)).toNat = if 255 < a.toNat + b.toNat then 1 else 0 := by
  simp only [flagByte, carry, decide_eq_true_eq, gt_iff_lt]
  split <;> rfl

theorem lowNibble_toNat (a : Byte) : (lowNibble a).toNat = a.toNat % 16 :=
  (BitVec.toNat_and _ _).trans (Nat.and_two_pow_sub_one_eq_mod a.toNat 4)

theorem topBit_toNat (a : Byte) : (topBit a).toNat = a.toNat / 128 :=
  (BitVec.toNat_ushiftRight _ _).trans (Nat.shiftRight_eq_div_pow _ _)

/-- An instruction that adds with carry, for the sum of any two bytes. -/
theorem exec_of_addCarry {i : Instr} {s : State} {x : RegIdx} {a b : Byte}
    (hexec : exec i s = .next (s.addCarry x a b).advance) :
    ∃ t, exec i s = .next t ∧ (x ≠ VF → (t.v x).toNat = (a.toNat + b.toNat) % 256) ∧
      (t.v VF).toNat = (if 255 < a.toNat + b.toNat then 1 else 0) ∧ KeepsAllButRegs [x, VF] s t ∧
      AdvancesBy 2 s t := by
  obtain ⟨t, ht, hx, hvf, hframe⟩ := exec_of_setResultFlag hexec
  exact ⟨t, ht, fun h => (congrArg BitVec.toNat (hx h)).trans (BitVec.toNat_add a b),
    (congrArg BitVec.toNat hvf).trans (flagByte_carry_toNat a b), hframe⟩

end Sys2Proof.Laws

namespace Sys2Proof.Proofs

open Sys2Proof.Laws Sys2Proof.Machine Sys2Proof.Safety

/-- Settles O38: all three are the addition with carry, SUBN with the summands exchanged. -/
theorem threeEncodingsOfOneAddition : Obligations.ThreeEncodingsOfOneAddition := by
  rintro x y s i (rfl | rfl | rfl)
  · exact exec_of_addCarry rfl
  · exact exec_of_addCarry rfl
  · rw [Nat.add_comm (s.v x).toNat]
    exact exec_of_addCarry rfl

/-- Settles O39: the results and the flags of the two shifts as numbers; y does not occur in what they write. -/
theorem shiftsIgnoreYAndWriteTheFlagLast : Obligations.ShiftsIgnoreYAndWriteTheFlagLast := by
  intro x y s
  obtain ⟨t, ht, hx, hvf, hframe⟩ := exec_of_setResultFlag (i := .shr x y) (s := s) rfl
  obtain ⟨u, hu, hx', hvf', hframe'⟩ := exec_of_setResultFlag (i := .shl x y) (s := s) rfl
  refine ⟨⟨t, ht, fun h => ?_, ?_, hframe⟩, ⟨u, hu, fun h => ?_, ?_, hframe'⟩⟩
  · rw [hx h, BitVec.toNat_ushiftRight, Nat.shiftRight_eq_div_pow, Nat.pow_one]
  · rw [hvf, lowNibble_toNat]
  · rw [hx' h, BitVec.toNat_shiftLeft, Nat.shiftLeft_eq, Nat.pow_one]
  · rw [hvf', topBit_toNat]

end Sys2Proof.Proofs
end

section
/-!
PROOFS. The host's operations (70_reset_and_hazards.md rules R180 to R184): what Reset leaves, what Load stores and what
Snapshot answers, and the invariant over everything a host can do from Reset.
-/

namespace Sys2Proof.Laws

open Sys2Proof.Machine Sys2Proof.Safety

/-! ### Load -/

theorem hostOp_load {s : State} (h : s.stepped = false) (bytes : List Byte) :
    hostOp (.load bytes) s = (s.loadImage bytes, .dropped (bytes.length - 3584)) := by
  rw [hostOp, if_neg (by simp [h])]
  rfl

theorem hostOp_load_refused {s : State} (h : s.stepped = true) (bytes : List Byte) :
    hostOp (.load bytes) s = (s, .refused .loadAfterStep) := by
  rw [hostOp, if_pos h]

/-- What Load copies ends at 0xFFF, the last byte of memory. -/
theorem image_fits (bytes : List Byte) : Config.progBase + (bytes.take Config.progMax).length ≤ 0x1000 := by
  rw [List.length_take]
  exact Nat.add_le_add_left (Nat.min_le_left 3584 _) 512

/-! ### Step -/

theorem step_next_stepped {s t : State} (h : step s = .next t) : t.stepped = true := by
  obtain ⟨i, -, hc⟩ := step_changes h
  exact hc.phase

theorem hostOp_step_stepped (s : State) : (hostOp .step s).1.stepped = true := by
  simp only [hostOp, hostStep]
  split
  · next h => exact step_next_stepped h
  · rfl
  · rfl

/-! ### Snapshot -/

/-- Snapshot is the concatenation of the 32 rows of 64 pixels. -/
theorem snapshot_eq_flatten (fb : Screen) : fb.snapshot = fb.flatten.toList := by
  simp only [Screen.snapshot, List.flatMap_def, Vector.flatten, Nat.reduceMul, Vector.toList_mk,
    Array.toList_flatten, Array.toList_map, List.map_map]
  rfl

theorem snapshot_length (fb : Screen) : fb.snapshot.length = 2048 := by
  rw [snapshot_eq_flatten, Vector.length_toList]

theorem snapshot_getElem? (fb : Screen) {x y : Nat} (hx : x < 64) (hy : y < 32) :
    fb.snapshot[y * 64 + x]? = some (fb.pixel x y) := by
  have hdiv : (y * 64 + x) / 64 = y := by omega
  have hmod : (y * 64 + x) % 64 = x := by omega
  rw [snapshot_eq_flatten, Vector.getElem?_toList, Vector.getElem?_flatten, dif_pos (by omega)]
  simp only [hdiv, hmod, Screen.pixel, Nat.mod_eq_of_lt hx, Nat.mod_eq_of_lt hy]

/-! ### The invariant -/

theorem loadImage_inv {s : State} (h : Inv s) (bytes : List Byte) : Inv (s.loadImage bytes) := by
  obtain ⟨hwf, hrest⟩ := h
  exact ⟨Memory.putBytes_wf hwf _ (image_fits bytes), hrest⟩

theorem reset_inv : Inv State.reset :=
  ⟨Memory.nil_wf, by decide, by decide, fun _ hk => absurd hk (Nat.not_lt_zero _)⟩

theorem hostOp_inv {s : State} (h : Inv s) (op : HostOp) : Inv (hostOp op s).1 := by
  cases op with
  | reset => exact reset_inv
  | load bytes =>
    cases hs : s.stepped with
    | false => rw [hostOp_load hs]; exact loadImage_inv h bytes
    | true => rw [hostOp_load_refused hs]; exact h
  | step =>
    simp only [hostOp, hostStep]
    split
    · next t hstep => exact Proofs.stepKeepsTheInvariant s t h hstep
    · exact h
    · exact h
  | snapshot => exact h

end Sys2Proof.Laws

namespace Sys2Proof.Proofs

open Sys2Proof.Laws Sys2Proof.Machine Sys2Proof.Safety

/-- Settles O13: the reset state field by field; with no cell listed, memory reads as the font and past it as 0. -/
theorem resetState : Obligations.ResetState := by
  have hfont : font.length = 80 := rfl
  refine ⟨hfont, fun s => ⟨State.reset, rfl, rfl, rfl, fun r => ?_, rfl, rfl, fun k => ?_, rfl, fun a => ?_,
    Screen.pixel_clear, rfl⟩⟩
  · exact Vector.getElem_replicate r.isLt
  · exact Vector.getElem_replicate k.isLt
  · split
    · rfl
    · next ha => exact List.getD_eq_default _ _ (by omega)

/-- Settles O14: no cell is listed, the two registers have their reset values and no stack entry is live. -/
theorem resetMeetsTheInvariant : Obligations.ResetMeetsTheInvariant :=
  reset_inv

/-- Settles O16: by induction on how the state was reached; `hostOp_inv` is the step. -/
theorem reachableStatesMeetTheInvariant : Obligations.ReachableStatesMeetTheInvariant := by
  intro s h
  induction h with
  | reset => exact reset_inv
  | host op _ ih => exact hostOp_inv ih op

/-- Settles O17: Load writes one block, the image cut at 3584 bytes, and a block write is read back byte by byte. -/
theorem loadCopiesTheImage : Obligations.LoadCopiesTheImage := by
  intro s bytes hs
  refine ⟨_, hostOp_load hs bytes, fun k hk hmax => ?_, fun a ha => byte_putBytes_of_outside ?_⟩
  · have htaken : k < (bytes.take 3584).length := List.length_take ▸ lt_min hmax hk
    refine (byte_putBytes_add htaken 0).trans ?_
    simp [hmax]
  · rw [List.length_take, Nat.min_comm]
    exact ha

/-- Settles O18: the two bytes Load puts at 0x200 are those of the word, the fetch puts them together again, and the
word decodes to its instruction. -/
theorem loadedProgramStartsWithItsFirstWord : Obligations.LoadedProgramStartsWithItsFirstWord := by
  intro i rest hwf
  obtain ⟨m, hload, hbytes, -⟩ := loadCopiesTheImage State.reset (wordBytes (encode i) ++ rest) rfl
  have hlen : 1 < (wordBytes (encode i) ++ rest).length := by simp [wordBytes]
  have hword : m.word 0x200 = encode i := by
    rw [Memory.word, hbytes 0 (by omega) (by decide), hbytes 1 hlen (by decide)]
    exact word_of_bytes _
  rw [hload]
  have hwindow : 0x200 ≤ State.reset.pc.toNat ∧ State.reset.pc.toNat ≤ 0xFFE := by decide
  exact nextInstr_eq_some.mpr ⟨_, fetch_ok.mpr ⟨hwindow, hword.symm⟩, decode_encode hwf⟩

/-- Settles O19: every Step sets the flag, and Load looks at it first. -/
theorem loadIsRefusedAfterAStep : Obligations.LoadIsRefusedAfterAStep := by
  intro s bytes
  have hstepped := hostOp_step_stepped s
  exact ⟨hstepped, hostOp_load_refused hstepped bytes, rfl⟩

/-- Settles O20: the rows one after the other, so element y * 64 + x is column x of row y. -/
theorem snapshotIsRowMajor : Obligations.SnapshotIsRowMajor := by
  intro s
  exact ⟨_, rfl, snapshot_length s.fb, fun _ _ hx hy => snapshot_getElem? s.fb hx hy⟩

end Sys2Proof.Proofs
end

section
/-!
PROOFS. The memory transfers (44_index_timer_memory.md rules R122 to R126) and the canonical form of memory. A store is
one block write at I, a load one block read, and both are read byte by byte; what is stored can be loaded or fetched.
-/

namespace Sys2Proof.Laws

open Sys2Proof.Machine Sys2Proof.Safety

/-! ### Stores -/

/-- The frame of a block store from I that advances: only the bytes of the block and pc change. -/
theorem putBytes_advance_frame (s : State) (bs : List Byte) {t : State}
    (ht : t = State.advance { s with mem := s.mem.putBytes s.base bs }) :
    KeepsMemoryOutside s.base bs.length s t ∧ AdvancesBy 2 s t ∧ KeepsRegs [] s t ∧ KeepsStack s t ∧
      KeepsIndex s t ∧ KeepsTimer s t ∧ KeepsScreen s t ∧ KeepsPhase s t := by
  subst ht
  exact ⟨fun _ ha => byte_putBytes_of_outside ha, advancesBy_two_of_pc rfl, fun _ _ => rfl, ⟨rfl, rfl⟩, rfl, rfl,
    rfl, rfl⟩

/-- After a store of the digits of a byte: hundreds, tens and ones, each the number it stands for. -/
theorem byte_putBytes_bcdDigits (m : Memory) (a : Nat) (b : Byte) :
    ((m.putBytes a (bcdDigits b)).byte a).toNat = b.toNat / 100 ∧
      ((m.putBytes a (bcdDigits b)).byte (a + 1)).toNat = b.toNat / 10 % 10 ∧
      ((m.putBytes a (bcdDigits b)).byte (a + 2)).toNat = b.toNat % 10 := by
  have hdigit {k : Nat} (hk : k < 3) : (m.putBytes a (bcdDigits b)).byte (a + k) = (bcdDigits b).getD k 0 :=
    byte_putBytes_add (bs := bcdDigits b) hk 0
  have hb : b.toNat < 2 ^ 8 := b.isLt
  have hfirst : (m.putBytes a (bcdDigits b)).byte a = (bcdDigits b).getD 0 0 := hdigit (k := 0) (by decide)
  rw [hfirst, hdigit (by decide), hdigit (by decide)]
  simp only [bcdDigits, List.getD_cons_zero, List.getD_cons_succ, BitVec.toNat_ofNat]
  omega

/-- After a store of V0 to Vx the byte at I + r is Vr. -/
theorem byte_putBytes_block (s : State) {x r : RegIdx} (hr : r.val ≤ x.val) (m : Memory) (a : Nat) :
    (m.putBytes a (s.block x)).byte (a + r.val) = s.v r := by
  have hlen : r.val < (s.block x).length := by rw [State.block_length]; omega
  rw [byte_putBytes_add hlen 0, State.block_getD s x r hr]

/-- What is true after an Fx55 that completed: the block was inside memory and reads as V0 to Vx. -/
theorem block_of_exec_stRegs {x : RegIdx} {s t : State} (h : exec (.stRegs x) s = .next t) :
    s.base + (x.val + 1) ≤ 0x1000 ∧ ∀ r : RegIdx, r.val ≤ x.val → t.mem.byte (s.base + r.val) = s.v r := by
  obtain ⟨hrange, rfl⟩ := execStRegs_next.mp h
  exact ⟨hrange, fun r hr => byte_putBytes_block s hr s.mem s.base⟩

/-! ### Loads -/

/-- An Fx65 inside memory loads the byte at I + r into Vr, for r up to x, and keeps the registers above. -/
theorem exec_ldRegs {x : RegIdx} {s : State} (hrange : s.base + (x.val + 1) ≤ 0x1000) :
    ∃ bs, exec (.ldRegs x) s = .next (s.setRegs bs).advance ∧
      (∀ r : RegIdx, r.val ≤ x.val → (s.setRegs bs).advance.v r = s.mem.byte (s.base + r.val)) ∧
      ∀ r : RegIdx, x.val < r.val → (s.setRegs bs).advance.v r = s.v r := by
  refine ⟨_, execLdRegs_next.mpr ⟨hrange, rfl⟩, fun r hr => ?_, fun r hr => ?_⟩
  · rw [State.advance_v, State.setRegs_v, Memory.getBytes_getD, if_pos (by omega)]
  · rw [State.advance_v, State.setRegs_v, Memory.getBytes_getD, if_neg (by omega)]

theorem setRegs_advance_frame (s : State) (bs : List Byte) {t : State} (ht : t = (s.setRegs bs).advance) :
    KeepsMemory s t ∧ AdvancesBy 2 s t ∧ KeepsStack s t ∧ KeepsIndex s t ∧ KeepsTimer s t ∧ KeepsScreen s t ∧
      KeepsPhase s t := by
  subst ht
  refine ⟨fun a => ?_, advancesBy_two_of_pc ?_, ⟨?_, ?_⟩, ?_, ?_, ?_, ?_⟩ <;>
    simp [KeepsIndex, KeepsTimer, KeepsScreen, KeepsPhase]

/-! ### The canonical form -/

/-- A byte that is not the reset contents stands in a cell. -/
theorem mem_of_byte_ne_initial {m : Memory} {a : Nat} (h : m.byte a ≠ Memory.initial a) : (a, m.byte a) ∈ m := by
  induction m with
  | nil => exact absurd (Memory.byte_nil a) h
  | cons c m ih =>
    rw [Memory.byte_cons] at h ⊢
    split at h
    · next hc =>
      rw [if_pos hc, ← hc]
      exact List.mem_cons_self
    · next hc =>
      rw [if_neg hc]
      exact List.mem_cons_of_mem c (ih h)

/-- With rising addresses every cell is what its address reads as. -/
theorem byte_of_mem {m : Memory} (hm : m.Pairwise (fun c d => c.1 < d.1)) {c : Host.Cell} (hc : c ∈ m) :
    m.byte c.1 = c.2 := by
  induction m with
  | nil => cases hc
  | cons d m ih =>
    obtain ⟨hd, hm⟩ := List.pairwise_cons.mp hm
    rw [Memory.byte_cons]
    rcases List.mem_cons.mp hc with rfl | hc
    · exact if_pos rfl
    · rw [if_neg (hd c hc).ne, ih hm hc]

/-- The cells of a canonical memory are the bytes that differ from their reset contents. -/
theorem mem_iff_byte_of_wf {m : Memory} (h : m.wf) (c : Host.Cell) :
    c ∈ m ↔ m.byte c.1 = c.2 ∧ c.2 ≠ Memory.initial c.1 := by
  obtain ⟨hrising, hcells⟩ := h
  constructor
  · exact fun hc => ⟨byte_of_mem hrising hc, (hcells c hc).2⟩
  · rintro ⟨hbyte, hne⟩
    have hmem := mem_of_byte_ne_initial (hbyte ▸ hne)
    rwa [hbyte] at hmem

end Sys2Proof.Laws

namespace Sys2Proof.Proofs

open Sys2Proof.Laws Sys2Proof.Machine Sys2Proof.Safety

/-- Settles O42: the three numbers stored are the hundreds, tens and ones of Vx, which add up to it. -/
theorem bcdStoresTheThreeDigits : Obligations.BcdStoresTheThreeDigits := by
  intro x s hfits
  obtain ⟨hundreds, tens, ones⟩ := byte_putBytes_bcdDigits s.mem s.base (s.v x)
  have hv : (s.v x).toNat < 2 ^ 8 := (s.v x).isLt
  refine ⟨_, execLdBcd_next.mpr ⟨by omega, rfl⟩, ?_, ?_, ?_, ?_, putBytes_advance_frame s (bcdDigits (s.v x)) rfl⟩
  all_goals
    simp only [State.advance_mem, hundreds, tens, ones]
    omega

/-- Settles O43: the block write is read back register by register. -/
theorem registerBlockStore : Obligations.RegisterBlockStore := by
  intro x s hfits
  have hstore : exec (.stRegs x) s = .next _ := execStRegs_next.mpr ⟨by omega, rfl⟩
  obtain ⟨-, hbytes⟩ := block_of_exec_stRegs hstore
  have hframe := putBytes_advance_frame s (s.block x) rfl
  rw [State.block_length] at hframe
  exact ⟨_, hstore, hbytes, hframe⟩

/-- Settles O44: `exec_ldRegs` says what each register holds, and a load writes registers and pc only. -/
theorem registerBlockLoad : Obligations.RegisterBlockLoad := by
  intro x s hfits
  obtain ⟨bs, hload, hlow, hhigh⟩ := exec_ldRegs (x := x) (s := s) (by omega)
  exact ⟨_, hload, hlow, hhigh, setRegs_advance_frame s bs rfl⟩

/-- Settles O45: each of the four faults exactly when its range check does, with the larger of I and 0x1000. -/
theorem dataAccessPastTheEndFaults : Obligations.DataAccessPastTheEndFaults := by
  intro x y n s
  have hfault {k : Nat} (hk : k ≠ 0) (hpast : 0xFFF < s.base + k - 1) :
      rangeFault s.base k = some (.dataAddressOutOfRange (max s.base 0x1000)) :=
    rangeFault_eq_some.mpr ⟨hk, hpast, rfl⟩
  refine ⟨max s.base 0x1000, fun h => by omega, fun h => ?_, fun h => ?_, fun h => ?_, fun hn h => ?_⟩
  · exact execLdBcd_fault.mpr (hfault (by decide) h)
  · exact execStRegs_fault.mpr (hfault (Nat.succ_ne_zero _) h)
  · exact execLdRegs_fault.mpr (hfault (Nat.succ_ne_zero _) h)
  · exact execDrw_fault.mpr (hfault hn.ne' h)

/-- Settles O46: the load reads the bytes the store wrote. -/
theorem storeThenLoadGivesTheRegistersBack : Obligations.StoreThenLoadGivesTheRegistersBack := by
  intro x s t u hstore hi hsame
  obtain ⟨hrange, hbytes⟩ := block_of_exec_stRegs hstore
  have hbase : u.base = s.base := congrArg BitVec.toNat hi
  obtain ⟨bs, hload, hlow, -⟩ := exec_ldRegs (x := x) (s := u) (hbase ▸ hrange)
  refine ⟨_, hload, fun k hk => ?_⟩
  rw [hlow k hk, hbase, hsame _ (by omega) (by omega), hbytes k hk]

/-- Settles O47: the two bytes fetched are the bytes the store wrote for Vr and V(r+1). -/
theorem nextFetchSeesTheStore : Obligations.NextFetchSeesTheStore := by
  intro x r q s t u hstore hq hqx hmem hpc hlo
  obtain ⟨hrange, hbytes⟩ := block_of_exec_stRegs hstore
  have hnext : u.pc.toNat + 1 = s.base + q.val := by omega
  rw [fetch_of_window hlo (by omega), hnext, hpc, hmem, hbytes r (by omega), hbytes q hqx]

/-- Settles O48: both hold the same cells, those of the bytes that are not the reset contents, in the one rising
order. -/
theorem canonicalMemoriesThatReadAlikeAreEqual : Obligations.CanonicalMemoriesThatReadAlikeAreEqual := by
  intro m m' hm hm' halike
  have hirrefl : Std.Irrefl (fun c d : Host.Cell => c.1 < d.1) := ⟨fun c => lt_irrefl c.1⟩
  have hantisymm : Std.Antisymm (fun c d : Host.Cell => c.1 < d.1) := ⟨fun c d h h' => absurd h (lt_asymm h')⟩
  refine hm.1.eq_of_mem_iff hm'.1 fun c => ?_
  rw [mem_iff_byte_of_wf hm, mem_iff_byte_of_wf hm', halike]

end Sys2Proof.Proofs
end

section
/-!
PROOFS. The sprite draw (45_display.md rules R132, R136 to R142). A row of the sprite is drawn as the picture of that
row alone; the rows of a sprite of at most 32 lie on different rows of the screen, so a draw is the exclusive or with
the picture of the whole sprite, and an on pixel meets a set bit of it while it is drawn exactly if it did before.
-/

namespace Sys2Proof.Laws

open Sys2Proof.Machine Sys2Proof.Safety

/-! ### The picture of a sprite, row by row -/

@[simp] theorem spritePixel_nil (vx vy x y : Nat) : spritePixel vx vy [] x y = false := by
  simp [spritePixel]

/-- The picture of one row is set where one of its eight columns lands with a set bit. -/
theorem spritePixel_singleton {vx vy x y : Nat} {b : Byte} :
    spritePixel vx vy [b] x y = true ↔
      ∃ c < 8, (x % 64 = (vx + c) % 64 ∧ y % 32 = vy % 32) ∧ spriteBit b c = true := by
  simp only [spritePixel, spriteBit, List.length_singleton, Bool.and_eq_true, decide_eq_true_eq]
  constructor
  · rintro ⟨⟨hc, hr⟩, hbit⟩
    rw [Nat.lt_one_iff.mp hr] at hbit
    exact ⟨_, hc, ⟨by omega, by omega⟩, hbit⟩
  · rintro ⟨c, hc, ⟨hx, hy⟩, hbit⟩
    have hcol : (x + 64 - vx % 64) % 64 = c := by omega
    have hrow : (y + 32 - vy % 32) % 32 = 0 := by omega
    rw [hcol, hrow]
    exact ⟨⟨hc, Nat.one_pos⟩, hbit⟩

/-- On its own screen row the picture is that of the first sprite row. -/
theorem spritePixel_cons_of_eq {vx vy x y : Nat} {b : Byte} {bs : List Byte} (hy : y % 32 = vy % 32) :
    spritePixel vx vy (b :: bs) x y = spritePixel vx vy [b] x y := by
  have hrow : (y + 32 - vy % 32) % 32 = 0 := by omega
  simp [spritePixel, hrow]

/-- On every other screen row it is that of the other sprite rows, which start one lower. -/
theorem spritePixel_cons_of_ne {vx vy x y : Nat} {b : Byte} {bs : List Byte} (hy : y % 32 ≠ vy % 32) :
    spritePixel vx vy (b :: bs) x y = spritePixel vx (vy + 1) bs x y := by
  have hrow : (y + 32 - vy % 32) % 32 = (y + 32 - (vy + 1) % 32) % 32 + 1 := by omega
  simp [spritePixel, hrow]

/-- A sprite of fewer than 32 rows does not come back round to the screen row above it. -/
theorem spritePixel_below_of_eq {vx vy x y : Nat} {bs : List Byte} (hlen : bs.length < 32) (hy : y % 32 = vy % 32) :
    spritePixel vx (vy + 1) bs x y = false := by
  have hrow : (y + 32 - (vy + 1) % 32) % 32 = 31 := by omega
  have hlast : ¬31 < bs.length := by omega
  simp [spritePixel, hrow, hlast]

/-! ### Drawing one row -/

theorem drawRow_pixel (vx vy : Nat) (b : Byte) (fb : Screen) (x y : Nat) :
    (drawRow vx vy b fb).1.pixel x y = (fb.pixel x y ^^ spritePixel vx vy [b] x y) := by
  rw [drawRow, drawCols_pixel vx vy b _ List.nodup_range (fun c hc => List.mem_range.mp hc)]
  congr 1
  rw [Bool.eq_iff_iff, spritePixel_singleton]
  simp

theorem drawRow_hit (vx vy : Nat) (b : Byte) (fb : Screen) :
    (drawRow vx vy b fb).2 = true ↔ Collides fb vx vy [b] := by
  rw [drawRow, drawCols_hit vx vy b _ List.nodup_range (fun c hc => List.mem_range.mp hc), List.any_eq_true]
  simp only [Collides, spritePixel_singleton, List.mem_range, Bool.and_eq_true]
  constructor
  · rintro ⟨c, hc, hon, hbit⟩
    refine ⟨(vx + c) % 64, vy % 32, Nat.mod_lt _ (by decide), Nat.mod_lt _ (by decide), ?_, c, hc, ?_, hbit⟩
    · rw [Screen.pixel_mod, hon]
    · rw [Nat.mod_mod, Nat.mod_mod]
      exact ⟨rfl, rfl⟩
  · rintro ⟨x, y, -, -, hon, c, hc, ⟨hx, hy⟩, hbit⟩
    refine ⟨c, hc, ?_, hbit⟩
    rw [← Screen.pixel_mod, ← hx, ← hy, Screen.pixel_mod, hon]

/-! ### Drawing a sprite -/

theorem drawSprite_pixel {bs : List Byte} (hlen : bs.length ≤ 32) (vx vy : Nat) (fb : Screen) (x y : Nat) :
    (drawSprite vx vy bs fb).1.pixel x y = (fb.pixel x y ^^ spritePixel vx vy bs x y) := by
  induction bs generalizing vy fb with
  | nil => simp [drawSprite]
  | cons b bs ih =>
    rw [List.length_cons] at hlen
    simp only [drawSprite, ih (by omega), drawRow_pixel]
    by_cases hy : y % 32 = vy % 32
    · rw [spritePixel_below_of_eq (by omega) hy, spritePixel_cons_of_eq (bs := bs) hy, Bool.xor_false]
    · rw [spritePixel_cons_of_ne (bs := []) hy, spritePixel_nil, Bool.xor_false, spritePixel_cons_of_ne hy]

/-- A sprite collides in its first row, or in the others after that row is drawn. -/
theorem collides_cons {bs : List Byte} (hlen : bs.length < 32) (vx vy : Nat) (b : Byte) (fb : Screen) :
    Collides fb vx vy (b :: bs) ↔
      Collides fb vx vy [b] ∨ Collides (drawRow vx vy b fb).1 vx (vy + 1) bs := by
  simp only [Collides, ← exists_or, ← and_or_left]
  refine exists_congr fun x => exists_congr fun y => and_congr_right fun _ => and_congr_right fun _ => ?_
  rw [drawRow_pixel]
  by_cases hy : y % 32 = vy % 32
  · simp [spritePixel_below_of_eq hlen hy, spritePixel_cons_of_eq (bs := bs) hy]
  · simp [spritePixel_cons_of_ne (bs := bs) hy, spritePixel_cons_of_ne (bs := []) hy]

theorem drawSprite_hit {bs : List Byte} (hlen : bs.length ≤ 32) (vx vy : Nat) (fb : Screen) :
    (drawSprite vx vy bs fb).2 = true ↔ Collides fb vx vy bs := by
  induction bs generalizing vy fb with
  | nil => simp [drawSprite, Collides]
  | cons b bs ih =>
    rw [List.length_cons] at hlen
    simp only [drawSprite, Bool.or_eq_true, ih (by omega), drawRow_hit]
    exact (collides_cons (by omega) vx vy b fb).symm

/-! ### The instruction -/

/-- A draw leaves the framebuffer as the exclusive or with the sprite of `n` rows from I, placed at (Vx, Vy). -/
theorem exec_drw_pixel {x y : RegIdx} {n : Nat} {s t : State} (hn : n ≤ 32) (h : exec (.drw x y n) s = .next t)
    (px py : Nat) :
    t.fb.pixel px py =
      (s.fb.pixel px py ^^ spritePixel (s.v x).toNat (s.v y).toNat (spriteRows s n) px py) := by
  obtain ⟨-, rfl⟩ := execDrw_next.mp h
  have hlen : (spriteRows s n).length ≤ 32 := (Memory.getBytes_length ..).trans_le hn
  exact drawSprite_pixel hlen _ _ s.fb px py

/-- VF reports whether an on pixel met a set bit of the sprite (rule R140). -/
theorem exec_drw_flag {x y : RegIdx} {n : Nat} {s t : State} (hn : n ≤ 32) (h : exec (.drw x y n) s = .next t) :
    (Collides s.fb (s.v x).toNat (s.v y).toNat (spriteRows s n) → t.v VF = 1) ∧
      (¬Collides s.fb (s.v x).toNat (s.v y).toNat (spriteRows s n) → t.v VF = 0) := by
  obtain ⟨-, rfl⟩ := execDrw_next.mp h
  have hlen : (spriteRows s n).length ≤ 32 := (Memory.getBytes_length ..).trans_le hn
  have hhit := drawSprite_hit hlen (s.v x).toNat (s.v y).toNat s.fb
  rw [State.advance_v, State.setV_v, if_pos rfl, ← hhit]
  simp [flagByte, spriteRows]

end Sys2Proof.Laws

namespace Sys2Proof.Proofs

open Sys2Proof.Laws Sys2Proof.Machine Sys2Proof.Safety

/-- Settles O49: the one pixel written is the one whose coordinates are equal modulo width and height. -/
theorem toggleMutatesExactlyOneCell : Obligations.ToggleMutatesExactlyOneCell := by
  intro fb x y bit
  refine ⟨?_, ?_, fun x' y' hx hy hne => ?_⟩
  · rw [Screen.toggle_snd, Screen.pixel_mod]
  · rw [Screen.pixel_mod, Screen.pixel_mod, Screen.pixel_toggle, if_pos ⟨rfl, rfl⟩]
  · rw [Screen.pixel_toggle, Nat.mod_eq_of_lt hx, Nat.mod_eq_of_lt hy, if_neg hne]

/-- Settles O51: pixels and flag are those of `exec_drw_pixel` and `exec_drw_flag`, the frame that of `exec_changes`. -/
theorem drawIsXorWithTheSprite : Obligations.DrawIsXorWithTheSprite := by
  intro x y n s hn hfits
  obtain ⟨t, hdraw⟩ : ∃ t, exec (.drw x y n) s = .next t := ⟨_, execDrw_next.mpr ⟨by omega, rfl⟩⟩
  obtain ⟨hhit, hmiss⟩ := exec_drw_flag (by omega) hdraw
  have hc := exec_changes hdraw
  exact ⟨t, hdraw, fun px py _ _ => exec_drw_pixel (by omega) hdraw px py, hhit, hmiss, advancesBy_two_of_pc hc.pc,
    fun r hr => hc.regs r (List.mem_singleton.not.mp hr), fun a => congrArg (Memory.byte · a) hc.memory, hc.stack,
    hc.index, hc.timer, hc.phase⟩

/-- Settles O52: the second draw has the coordinates and the sprite of the first, so its exclusive or undoes the first;
a pixel the first one turned on is set in the sprite and collides. -/
theorem drawingTwiceRestoresTheScreen : Obligations.DrawingTwiceRestoresTheScreen := by
  intro x y n s t hn hx hy hdraw
  have hc := exec_changes hdraw
  have hbase : t.base = s.base := congrArg BitVec.toNat hc.index
  have hmem : t.mem = s.mem := hc.memory
  have hvx : t.v x = s.v x := hc.regs x hx
  have hvy : t.v y = s.v y := hc.regs y hy
  have hrows : spriteRows t n = spriteRows s n := by rw [spriteRows, spriteRows, hmem, hbase]
  obtain ⟨hrange, -⟩ := execDrw_next.mp hdraw
  obtain ⟨u, hagain⟩ : ∃ u, exec (.drw x y n) t = .next u := ⟨_, execDrw_next.mpr ⟨hbase ▸ hrange, rfl⟩⟩
  have hfirst := exec_drw_pixel (by omega) hdraw
  refine ⟨u, hagain, Screen.ext_pixel fun px py _ _ => ?_, ?_⟩
  · rw [exec_drw_pixel (by omega) hagain, hfirst, hvx, hvy, hrows, Bool.xor_assoc, Bool.xor_self, Bool.xor_false]
  · rintro ⟨px, py, hpx, hpy, hoff, hon⟩
    obtain ⟨hhit, -⟩ := exec_drw_flag (by omega) hagain
    rw [hvx, hvy, hrows] at hhit
    have hset := hfirst px py
    rw [hoff, hon, Bool.false_xor] at hset
    exact hhit ⟨px, py, hpx, hpy, hon, hset.symm⟩

end Sys2Proof.Proofs
end
